-- ==== Sys2Proof/Word.lean ====
section
/-! DEFINITION. The plain values of Z16 (spec/00_scope.md rules R9, R11, R12): 16-bit words, bytes, register numbers. -/

namespace Sys2Proof

/-- `Word16`: a register, the pc, an instruction word (rule R12). -/
abbrev Word := BitVec 16

/-- A memory cell (rule R12). -/
abbrev Byte := BitVec 8

/-- A 3-bit register field: it names x0..x7 directly, every value is a register (rule R62). -/
abbrev RegIdx := BitVec 3

/-- The low byte of a word, `v[7:0]` (rule R41). -/
def loByte (v : Word) : Byte := v.extractLsb' 0 8

/-- The high byte of a word, `v[15:8]` (rule R41). -/
def hiByte (v : Word) : Byte := v.extractLsb' 8 8

/-- `lo | (hi << 8)`: two bytes as a word, the low byte first (rule R41). -/
def ofBytes (lo hi : Byte) : Word := hi ++ lo

end Sys2Proof
end

