-- ==== Sys2Proof/Config.lean ====
section
/-! DEFINITION. The named parameters of spec/00_scope.md rule R10, "which the source leaves open and the model takes as
arguments". They are plain data, fixed for a run: State holds one Config, and no step changes it. Their default values
stand in Sys2Proof/Decode.lean (the function-code tables) and Sys2Proof/Machine/Params.lean (the rest). INIT_MEM, the
twelfth parameter, is the memory a run is launched with (Sys2Proof/Machine/Launch.lean). -/

namespace Sys2Proof

/-- The thirteen RegReg operations (rule R71). -/
inductive RegOp
  | add | sub | slt | sltu | sll | srl | sra | or | and | xor | mv | jr | jalr
  deriving DecidableEq, Repr

/-- The seven Imm operations outside the shift group (rule R72). -/
inductive ImmOp
  | addi | slti | sltui | ori | andi | xori | li
  deriving DecidableEq, Repr

/-- The Imm shift group (rule R73). -/
inductive ShiftOp
  | slli | srli | srai
  deriving DecidableEq, Repr

/-- The eight branches (rule R74). -/
inductive BranchOp
  | beq | bne | bz | bnz | blt | bge | bltu | bgeu
  deriving DecidableEq, Repr

/-- The two stores (rule R75). -/
inductive StoreOp
  | sb | sw
  deriving DecidableEq, Repr

/-- The three loads (rule R76). -/
inductive LoadOp
  | lb | lw | lbu
  deriving DecidableEq, Repr

/-- A map from function codes to operations, as its list of rows; a code in no row has no operation, and of two rows
with one code the first counts. -/
abbrev CodeTable (κ ω : Type) := List (κ × ω)

/-- The operation a code selects, if any. -/
def CodeTable.op {κ ω : Type} [DecidableEq κ] (t : CodeTable κ ω) (k : κ) : Option ω :=
  (t.find? fun row => decide (row.1 = k)).map Prod.snd

/-- The code of an operation: the first row that holds it; `dflt` where no row does (such a table is not well formed,
`Tables.wf` of Sys2Proof/Decode.lean). -/
def CodeTable.code {κ ω : Type} [DecidableEq ω] (t : CodeTable κ ω) (dflt : κ) (o : ω) : κ :=
  ((t.find? fun row => decide (row.2 = o)).map Prod.fst).getD dflt

/-- The six function-code parameters of rule R10 (decisions D1 to D6). -/
structure Tables where
  /-- `R_FUNCT`: (funct4, funct3) to RegReg operation (rule R71). -/
  rFunct : CodeTable (BitVec 4 × BitVec 3) RegOp
  /-- `I_FUNCT3`: funct3 to Imm operation (rule R72). -/
  iFunct3 : CodeTable (BitVec 3) ImmOp
  /-- `SHIFT_MODE`: imm7[6:4] to shift (rule R73). -/
  shiftMode : CodeTable (BitVec 3) ShiftOp
  /-- `B_FUNCT3`: funct3 to branch (rule R74). -/
  bFunct3 : CodeTable (BitVec 3) BranchOp
  /-- `S_FUNCT3`: funct3 to store (rule R75). -/
  sFunct3 : CodeTable (BitVec 3) StoreOp
  /-- `L_FUNCT3`: funct3 to load (rule R76). -/
  lFunct3 : CodeTable (BitVec 3) LoadOp
  deriving DecidableEq, Repr

/-- `HALT_SVC`: the halting service, 3 or 0x3FF (rules R10, R190; decision D8). -/
inductive HaltSvc
  | svc3 | svc3FF
  deriving DecidableEq, Repr

/-- `UNIMPL_POLICY` (rules R10, R203; decision D9). -/
inductive UnimplPolicy
  | fault | continues
  deriving DecidableEq, Repr

/-- `ODD_FETCH` (rules R10, R103; decision D12). -/
inductive OddFetch
  | fault | unaligned
  deriving DecidableEq, Repr

/-- `JALR_ALIAS` (rules R10, R133; decision D13). -/
inductive JalrAlias
  | afterLink | beforeLink
  deriving DecidableEq, Repr

/-- `PC_OVERFLOW` (rules R10, R108; decision D23). -/
inductive PcOverflow
  | wrap | exhaust
  deriving DecidableEq, Repr

/-- All the parameters of rule R10 but INIT_MEM. -/
structure Config where
  tables : Tables
  haltSvc : HaltSvc
  unimplPolicy : UnimplPolicy
  oddFetch : OddFetch
  jalrAlias : JalrAlias
  pcOverflow : PcOverflow
  deriving DecidableEq, Repr

end Sys2Proof
end

