-- ==== Sys2Proof/Syntax.lean ====
section
/-! DEFINITION. The 41 instructions of spec/opcode_table.json, one constructor a row (spec/30_encoding.md section 3). A
field the instruction does not use (rs2 of jr, bz, bnz, rd of j: rule R82) is no operand. An immediate is the assembled
16-bit value `imm` of rule R60; its range and step (rule R88) are checked in Sys2Proof/WellFormed.lean. -/

namespace Sys2Proof

/-- A Z16 instruction with its operands. -/
inductive Instr
  -- RegReg: rd is rd_rs1, source and destination (rules R121 to R133)
  | add (rd rs2 : RegIdx)
  | sub (rd rs2 : RegIdx)
  | slt (rd rs2 : RegIdx)
  | sltu (rd rs2 : RegIdx)
  | sll (rd rs2 : RegIdx)
  | srl (rd rs2 : RegIdx)
  | sra (rd rs2 : RegIdx)
  | or (rd rs2 : RegIdx)
  | and (rd rs2 : RegIdx)
  | xor (rd rs2 : RegIdx)
  | mv (rd rs2 : RegIdx)
  | jr (rd : RegIdx)
  | jalr (rd rs2 : RegIdx)
  -- Imm (rules R141 to R150)
  | addi (rd : RegIdx) (imm : Word)
  | slti (rd : RegIdx) (imm : Word)
  | sltui (rd : RegIdx) (imm : Word)
  | ori (rd : RegIdx) (imm : Word)
  | andi (rd : RegIdx) (imm : Word)
  | xori (rd : RegIdx) (imm : Word)
  | li (rd : RegIdx) (imm : Word)
  | slli (rd : RegIdx) (shamt : BitVec 4)
  | srli (rd : RegIdx) (shamt : BitVec 4)
  | srai (rd : RegIdx) (shamt : BitVec 4)
  -- Branch: imm is the byte displacement (rules R161 to R168)
  | beq (rs1 rs2 : RegIdx) (imm : Word)
  | bne (rs1 rs2 : RegIdx) (imm : Word)
  | bz (rs1 : RegIdx) (imm : Word)
  | bnz (rs1 : RegIdx) (imm : Word)
  | blt (rs1 rs2 : RegIdx) (imm : Word)
  | bge (rs1 rs2 : RegIdx) (imm : Word)
  | bltu (rs1 rs2 : RegIdx) (imm : Word)
  | bgeu (rs1 rs2 : RegIdx) (imm : Word)
  -- Store and Load: base is rs2 (rules R171 to R175)
  | sb (src base : RegIdx) (imm : Word)
  | sw (src base : RegIdx) (imm : Word)
  | lb (rd base : RegIdx) (imm : Word)
  | lw (rd base : RegIdx) (imm : Word)
  | lbu (rd base : RegIdx) (imm : Word)
  -- Jump and Upper (rules R181 to R185)
  | j (imm : Word)
  | jal (rd : RegIdx) (imm : Word)
  | lui (rd : RegIdx) (imm : Word)
  | auipc (rd : RegIdx) (imm : Word)
  -- System (rule R190)
  | ecall (svc : BitVec 10)
  deriving DecidableEq, Repr

end Sys2Proof
end

