-- ==== Sys2Proof/WellFormed.lean ====
section
/-! DEFINITION. The well-formed instructions: the immediate ranges and steps of spec/30_encoding.md rule R88 ("the encoder
rejects a displacement or immediate outside the ranges of rules R64 to R69", rule R84). Register fields, shift amounts and
service numbers have no value outside their range. -/

namespace Sys2Proof

/-- Imm (signed): −64..63 (rules R64, R88). -/
def immOk (imm : Word) : Bool := decide (-64 ≤ imm.toInt ∧ imm.toInt ≤ 63)

/-- sltui: 0..127 (rules R64, R88). -/
def uimmOk (imm : Word) : Bool := decide (imm.toNat ≤ 127)

/-- Branch displacement: −16..14, even (rules R66, R88). -/
def branchOk (imm : Word) : Bool := decide (-16 ≤ imm.toInt ∧ imm.toInt ≤ 14 ∧ imm.toNat % 2 = 0)

/-- Store and Load offset: −8..7 (rules R67, R88). -/
def offsetOk (imm : Word) : Bool := decide (-8 ≤ imm.toInt ∧ imm.toInt ≤ 7)

/-- Jump displacement: −512..510, even (rules R68, R88). -/
def jumpOk (imm : Word) : Bool := decide (-512 ≤ imm.toInt ∧ imm.toInt ≤ 510 ∧ imm.toNat % 2 = 0)

/-- Upper immediate: 0..0xFF80 in steps of 128 (rules R69, R88). -/
def upperOk (imm : Word) : Bool := decide (imm.toNat % 128 = 0)

/-- The instruction's immediate is one its format can encode (rule R88). -/
def Instr.wf : Instr → Bool
  | .add _ _ => true
  | .sub _ _ => true
  | .slt _ _ => true
  | .sltu _ _ => true
  | .sll _ _ => true
  | .srl _ _ => true
  | .sra _ _ => true
  | .or _ _ => true
  | .and _ _ => true
  | .xor _ _ => true
  | .mv _ _ => true
  | .jalr _ _ => true
  | .jr _ => true
  | .addi _ imm => immOk imm
  | .slti _ imm => immOk imm
  | .ori _ imm => immOk imm
  | .andi _ imm => immOk imm
  | .xori _ imm => immOk imm
  | .li _ imm => immOk imm
  | .sltui _ imm => uimmOk imm
  | .slli _ _ => true
  | .srli _ _ => true
  | .srai _ _ => true
  | .beq _ _ imm => branchOk imm
  | .bne _ _ imm => branchOk imm
  | .blt _ _ imm => branchOk imm
  | .bge _ _ imm => branchOk imm
  | .bltu _ _ imm => branchOk imm
  | .bgeu _ _ imm => branchOk imm
  | .bz _ imm => branchOk imm
  | .bnz _ imm => branchOk imm
  | .sb _ _ imm => offsetOk imm
  | .sw _ _ imm => offsetOk imm
  | .lb _ _ imm => offsetOk imm
  | .lw _ _ imm => offsetOk imm
  | .lbu _ _ imm => offsetOk imm
  | .j imm => jumpOk imm
  | .jal _ imm => jumpOk imm
  | .lui _ imm => upperOk imm
  | .auipc _ imm => upperOk imm
  | .ecall _ => true

end Sys2Proof
end

