-- ==== Sys2Proof/Decode.lean ====
section
/-! DEFINITION. The instruction decoder of spec/30_encoding.md (rules R60 to R79), a total function from a 16-bit word to
a record of fields, the instruction that record stands for, the default function-code tables, and the encoder (rule R87). -/

namespace Sys2Proof

/-! ## The default function-code tables (rules R71 to R76, decisions D1 to D6) -/

/-- `R_FUNCT`, rule R71. -/
def defaultRFunct : CodeTable (BitVec 4 × BitVec 3) RegOp :=
  [((0b0000, 0b000), .add), ((0b0001, 0b000), .sub), ((0b0010, 0b001), .slt), ((0b0011, 0b010), .sltu),
   ((0b0100, 0b011), .sll), ((0b0101, 0b011), .srl), ((0b0110, 0b011), .sra), ((0b0111, 0b100), .or),
   ((0b1000, 0b101), .and), ((0b1001, 0b110), .xor), ((0b1010, 0b111), .mv), ((0b1011, 0b000), .jr),
   ((0b1100, 0b000), .jalr)]

/-- `I_FUNCT3`, rule R72. -/
def defaultIFunct3 : CodeTable (BitVec 3) ImmOp :=
  [(0b000, .addi), (0b001, .slti), (0b010, .sltui), (0b100, .ori), (0b101, .andi), (0b110, .xori), (0b111, .li)]

/-- `SHIFT_MODE`, rule R73. -/
def defaultShiftMode : CodeTable (BitVec 3) ShiftOp :=
  [(0b001, .slli), (0b010, .srli), (0b100, .srai)]

/-- `B_FUNCT3`, rule R74. -/
def defaultBFunct3 : CodeTable (BitVec 3) BranchOp :=
  [(0b000, .beq), (0b001, .bne), (0b010, .bz), (0b011, .bnz), (0b100, .blt), (0b101, .bge), (0b110, .bltu),
   (0b111, .bgeu)]

/-- `S_FUNCT3`, rule R75. -/
def defaultSFunct3 : CodeTable (BitVec 3) StoreOp :=
  [(0b000, .sb), (0b001, .sw)]

/-- `L_FUNCT3`, rule R76. -/
def defaultLFunct3 : CodeTable (BitVec 3) LoadOp :=
  [(0b000, .lb), (0b001, .lw), (0b100, .lbu)]

/-- The tables this spec takes by default (rule R10). -/
def defaultTables : Tables :=
  { rFunct := defaultRFunct, iFunct3 := defaultIFunct3, shiftMode := defaultShiftMode, bFunct3 := defaultBFunct3,
    sFunct3 := defaultSFunct3, lFunct3 := defaultLFunct3 }

/-! ## The fields of a word (rules R61 to R70): fixed slices, whatever the format -/

/-- `w[2:0]`, the opcode (rule R61). -/
def opcodeField (w : Word) : BitVec 3 := w.extractLsb' 0 3

/-- `w[5:3]`, funct3 (rule R60). -/
def funct3Field (w : Word) : BitVec 3 := w.extractLsb' 3 3

/-- `w[8:6]`, rd_rs1, rd or rs1 (rule R62). -/
def rdField (w : Word) : RegIdx := w.extractLsb' 6 3

/-- `w[11:9]`, rs2 (rule R62). -/
def rs2Field (w : Word) : RegIdx := w.extractLsb' 9 3

/-- `w[15:12]`, funct4 (rule R63); the 4-bit offset of Branch, Store and Load (rules R65, R67). -/
def funct4Field (w : Word) : BitVec 4 := w.extractLsb' 12 4

/-- `w[15]`, the link bit (rules R68, R69). -/
def linkField (w : Word) : BitVec 1 := w.extractLsb' 15 1

/-- `w[15:6]`, the service number (rule R70). -/
def svcField (w : Word) : BitVec 10 := w.extractLsb' 6 10

/-- `w[15:9]`, imm7 (rule R64). -/
def imm7Field (w : Word) : BitVec 7 := w.extractLsb' 9 7

/-- `w[15:13]`, the shift mode (rule R64). -/
def modeField (w : Word) : BitVec 3 := w.extractLsb' 13 3

/-- `w[12:9]`, the shift amount (rule R64). -/
def shamtField (w : Word) : BitVec 4 := w.extractLsb' 9 4

/-- `w[14:9]`, imm_hi of Jump and Upper (rules R68, R69). -/
def immHiField (w : Word) : BitVec 6 := w.extractLsb' 9 6

/-! ## The immediates (rules R64 to R69) -/

/-- Imm: `sext_7(w[15:9])` (rule R64). -/
def immSigned (w : Word) : Word := (imm7Field w).signExtend 16

/-- sltui: `zext_7(w[15:9])` (rule R64). -/
def immUnsigned (w : Word) : Word := (imm7Field w).zeroExtend 16

/-- Branch: `sext_5(w[15:12] << 1)` (rule R66). -/
def branchImm (w : Word) : Word := (funct4Field w ++ 0#1 : BitVec 5).signExtend 16

/-- Store and Load: `sext_4(w[15:12])` (rule R67). -/
def offsetImm (w : Word) : Word := (funct4Field w).signExtend 16

/-- Jump: `sext_10((w[14:9] << 4) | (w[5:3] << 1))` (rule R68). -/
def jumpImm (w : Word) : Word := (immHiField w ++ funct3Field w ++ 0#1 : BitVec 10).signExtend 16

/-- Upper: `(w[14:9] << 10) | (w[5:3] << 7)` (rule R69). -/
def upperImm (w : Word) : Word := immHiField w ++ funct3Field w ++ 0#7

/-! ## The decoded record (rule R60) -/

/-- The eight formats (rule R61). -/
inductive Format
  | regReg | imm | branch | store | load | jump | upper | system
  deriving DecidableEq, Repr

/-- The opcode of a format (rule R61). -/
def formatOpcode : Format → BitVec 3
  | .regReg => 0
  | .imm => 1
  | .branch => 2
  | .store => 3
  | .load => 4
  | .jump => 5
  | .upper => 6
  | .system => 7

/-- The format an opcode selects; every opcode selects one (rule R61). -/
def formatOf (opcode : BitVec 3) : Format :=
  if opcode = 0 then .regReg
  else if opcode = 1 then .imm
  else if opcode = 2 then .branch
  else if opcode = 3 then .store
  else if opcode = 4 then .load
  else if opcode = 5 then .jump
  else if opcode = 6 then .upper
  else .system

/-- Why a word spells no instruction (rules R60, R80). -/
inductive UnimplReason
  | badFunct | badShiftMode | sysReserved
  deriving DecidableEq, Repr

/-- The decoder's `op` output: one of the 41 instruction names, or `UNIMPL(reason)` (rule R60). -/
inductive Op
  | reg (o : RegOp)
  | imm (o : ImmOp)
  | shift (o : ShiftOp)
  | branch (o : BranchOp)
  | store (o : StoreOp)
  | load (o : LoadOp)
  | j | jal | lui | auipc | ecall
  | unimpl (r : UnimplReason)
  deriving DecidableEq, Repr

/-- The decoder's output record (rule R60). -/
structure Decoded where
  fmt : Format
  op : Op
  rdRs1 : RegIdx
  rs2 : RegIdx
  funct3 : BitVec 3
  funct4 : BitVec 4
  imm : Word
  shamt : BitVec 4
  link : BitVec 1
  svc : BitVec 10
  raw : Word
  deriving DecidableEq, Repr

/-- `X else UNIMPL(r)` of rule R79. -/
def opOrUnimpl {ω : Type} (known : ω → Op) (r : UnimplReason) : Option ω → Op
  | some o => known o
  | none => .unimpl r

/-- The op of an Imm word: funct3 = 3 is the shift group, else `I_FUNCT3` (rules R72, R73, R79). -/
def immWordOp (t : Tables) (w : Word) : Op :=
  if funct3Field w = 3 then opOrUnimpl .shift .badShiftMode (t.shiftMode.op (modeField w))
  else opOrUnimpl .imm .badFunct (t.iFunct3.op (funct3Field w))

/-- The `op` output (rules R71 to R79). -/
def decodeOp (t : Tables) (w : Word) : Op :=
  match formatOf (opcodeField w) with
  | .regReg => opOrUnimpl .reg .badFunct (t.rFunct.op (funct4Field w, funct3Field w))
  | .imm => immWordOp t w
  | .branch => opOrUnimpl .branch .badFunct (t.bFunct3.op (funct3Field w))
  | .store => opOrUnimpl .store .badFunct (t.sFunct3.op (funct3Field w))
  | .load => opOrUnimpl .load .badFunct (t.lFunct3.op (funct3Field w))
  | .jump => if linkField w = 1 then .jal else .j
  | .upper => if linkField w = 1 then .auipc else .lui
  | .system => if funct3Field w = 0 then .ecall else .unimpl .sysReserved

/-- The `imm` output of an Imm word: 0 for the shift group, zero-extended for sltui, else sign-extended (rule R79). -/
def immWordImm (t : Tables) (w : Word) : Word :=
  if funct3Field w = 3 then 0
  else if t.iFunct3.op (funct3Field w) = some .sltui then immUnsigned w
  else immSigned w

/-- The `imm` output; 0 where the format has no immediate (rules R60, R79). -/
def decodeImm (t : Tables) (w : Word) : Word :=
  match formatOf (opcodeField w) with
  | .regReg => 0
  | .imm => immWordImm t w
  | .branch => branchImm w
  | .store => offsetImm w
  | .load => offsetImm w
  | .jump => jumpImm w
  | .upper => upperImm w
  | .system => 0

/-- The decoder, total on every word (rules R60, R79). -/
def decode (t : Tables) (w : Word) : Decoded :=
  { fmt := formatOf (opcodeField w), op := decodeOp t w, rdRs1 := rdField w, rs2 := rs2Field w,
    funct3 := funct3Field w, funct4 := funct4Field w, imm := decodeImm t w, shamt := shamtField w,
    link := linkField w, svc := svcField w, raw := w }

/-! ## The instruction a record stands for -/

/-- A RegReg record's instruction (rule R71). -/
def regInstr (d : Decoded) : RegOp → Instr
  | .add => .add d.rdRs1 d.rs2
  | .sub => .sub d.rdRs1 d.rs2
  | .slt => .slt d.rdRs1 d.rs2
  | .sltu => .sltu d.rdRs1 d.rs2
  | .sll => .sll d.rdRs1 d.rs2
  | .srl => .srl d.rdRs1 d.rs2
  | .sra => .sra d.rdRs1 d.rs2
  | .or => .or d.rdRs1 d.rs2
  | .and => .and d.rdRs1 d.rs2
  | .xor => .xor d.rdRs1 d.rs2
  | .mv => .mv d.rdRs1 d.rs2
  | .jr => .jr d.rdRs1
  | .jalr => .jalr d.rdRs1 d.rs2

/-- An Imm record's instruction (rule R72). -/
def immInstr (d : Decoded) : ImmOp → Instr
  | .addi => .addi d.rdRs1 d.imm
  | .slti => .slti d.rdRs1 d.imm
  | .sltui => .sltui d.rdRs1 d.imm
  | .ori => .ori d.rdRs1 d.imm
  | .andi => .andi d.rdRs1 d.imm
  | .xori => .xori d.rdRs1 d.imm
  | .li => .li d.rdRs1 d.imm

/-- A shift record's instruction (rule R73). -/
def shiftInstr (d : Decoded) : ShiftOp → Instr
  | .slli => .slli d.rdRs1 d.shamt
  | .srli => .srli d.rdRs1 d.shamt
  | .srai => .srai d.rdRs1 d.shamt

/-- A Branch record's instruction (rule R74); bz and bnz ignore rs2 (rule R82). -/
def branchInstr (d : Decoded) : BranchOp → Instr
  | .beq => .beq d.rdRs1 d.rs2 d.imm
  | .bne => .bne d.rdRs1 d.rs2 d.imm
  | .bz => .bz d.rdRs1 d.imm
  | .bnz => .bnz d.rdRs1 d.imm
  | .blt => .blt d.rdRs1 d.rs2 d.imm
  | .bge => .bge d.rdRs1 d.rs2 d.imm
  | .bltu => .bltu d.rdRs1 d.rs2 d.imm
  | .bgeu => .bgeu d.rdRs1 d.rs2 d.imm

/-- A Store record's instruction (rule R75). -/
def storeInstr (d : Decoded) : StoreOp → Instr
  | .sb => .sb d.rdRs1 d.rs2 d.imm
  | .sw => .sw d.rdRs1 d.rs2 d.imm

/-- A Load record's instruction (rule R76). -/
def loadInstr (d : Decoded) : LoadOp → Instr
  | .lb => .lb d.rdRs1 d.rs2 d.imm
  | .lw => .lw d.rdRs1 d.rs2 d.imm
  | .lbu => .lbu d.rdRs1 d.rs2 d.imm

/-- The instruction a decoded record stands for, or why it stands for none: trace and executor read the one record
(rule R86). -/
def recordInstr (d : Decoded) : Except UnimplReason Instr :=
  match d.op with
  | .reg o => .ok (regInstr d o)
  | .imm o => .ok (immInstr d o)
  | .shift o => .ok (shiftInstr d o)
  | .branch o => .ok (branchInstr d o)
  | .store o => .ok (storeInstr d o)
  | .load o => .ok (loadInstr d o)
  | .j => .ok (.j d.imm)
  | .jal => .ok (.jal d.rdRs1 d.imm)
  | .lui => .ok (.lui d.rdRs1 d.imm)
  | .auipc => .ok (.auipc d.rdRs1 d.imm)
  | .ecall => .ok (.ecall d.svc)
  | .unimpl r => .error r

/-- The instruction a word spells, or the reason it spells none (rules R79, R80). -/
def decodeWord (t : Tables) (w : Word) : Except UnimplReason Instr := recordInstr (decode t w)

/-- Why a byte sequence gives no instruction: its word is unimplemented, or it is too short for one (every instruction is
two bytes, rule R83). -/
inductive DecodeReject
  | unimpl (r : UnimplReason)
  | truncated
  deriving DecidableEq, Repr

/-- Decoding at the head of a byte sequence, the low byte first (rule R42), with the bytes that follow. -/
def decodeBytes (t : Tables) : List Byte → Except DecodeReject (Instr × List Byte)
  | lo :: hi :: rest =>
    match decodeWord t (ofBytes lo hi) with
    | .ok i => .ok (i, rest)
    | .error r => .error (.unimpl r)
  | _ => .error .truncated

/-- The instruction the decoder reads, under the default tables, from an instruction whose bits are `w`, the first
`nbits` of them given: its bytes in memory order. -/
def decodeTableWord (nbits w : Nat) : Option Instr :=
  let word : Word := BitVec.ofNat 16 (w % 2 ^ nbits)
  match decodeBytes defaultTables [loByte word, hiByte word] with
  | .ok (i, _) => some i
  | .error _ => none

/-! ## The encoder (rule R87): don't-care fields are 0 -/

/-- RegReg (rule R63). -/
def packReg (code : BitVec 4 × BitVec 3) (rs2 rd : RegIdx) : Word := code.1 ++ rs2 ++ rd ++ code.2 ++ 0b000#3

/-- Imm (rule R64). -/
def packImm (funct3 : BitVec 3) (rd : RegIdx) (imm : Word) : Word := imm.extractLsb' 0 7 ++ rd ++ funct3 ++ 0b001#3

/-- Imm, shift form (rules R64, R73). -/
def packShift (mode : BitVec 3) (rd : RegIdx) (shamt : BitVec 4) : Word := mode ++ shamt ++ rd ++ 0b011#3 ++ 0b001#3

/-- Branch (rules R65, R66). -/
def packBranch (funct3 : BitVec 3) (rs1 rs2 : RegIdx) (imm : Word) : Word :=
  imm.extractLsb' 1 4 ++ rs2 ++ rs1 ++ funct3 ++ 0b010#3

/-- Store (rule R67). -/
def packStore (funct3 : BitVec 3) (src base : RegIdx) (imm : Word) : Word :=
  imm.extractLsb' 0 4 ++ base ++ src ++ funct3 ++ 0b011#3

/-- Load (rule R67). -/
def packLoad (funct3 : BitVec 3) (rd base : RegIdx) (imm : Word) : Word :=
  imm.extractLsb' 0 4 ++ base ++ rd ++ funct3 ++ 0b100#3

/-- Jump (rule R68). -/
def packJump (link : BitVec 1) (rd : RegIdx) (imm : Word) : Word :=
  link ++ imm.extractLsb' 4 6 ++ rd ++ imm.extractLsb' 1 3 ++ 0b101#3

/-- Upper (rule R69). -/
def packUpper (link : BitVec 1) (rd : RegIdx) (imm : Word) : Word :=
  link ++ imm.extractLsb' 10 6 ++ rd ++ imm.extractLsb' 7 3 ++ 0b110#3

/-- System (rules R70, R78). -/
def packSystem (svc : BitVec 10) : Word := svc ++ 0b000#3 ++ 0b111#3

/-- The code of a RegReg operation. -/
def regCode (t : Tables) (o : RegOp) : BitVec 4 × BitVec 3 := t.rFunct.code (0, 0) o

/-- The code of an Imm operation. -/
def immCode (t : Tables) (o : ImmOp) : BitVec 3 := t.iFunct3.code 0 o

/-- The mode of a shift. -/
def shiftCode (t : Tables) (o : ShiftOp) : BitVec 3 := t.shiftMode.code 0 o

/-- The code of a branch. -/
def branchCode (t : Tables) (o : BranchOp) : BitVec 3 := t.bFunct3.code 0 o

/-- The code of a store. -/
def storeCode (t : Tables) (o : StoreOp) : BitVec 3 := t.sFunct3.code 0 o

/-- The code of a load. -/
def loadCode (t : Tables) (o : LoadOp) : BitVec 3 := t.lFunct3.code 0 o

/-- The word of an instruction (rule R87); it is meant for well-formed ones, `encodeChecked` refuses the others. -/
def encode (t : Tables) : Instr → Word
  | .add rd rs2 => packReg (regCode t .add) rs2 rd
  | .sub rd rs2 => packReg (regCode t .sub) rs2 rd
  | .slt rd rs2 => packReg (regCode t .slt) rs2 rd
  | .sltu rd rs2 => packReg (regCode t .sltu) rs2 rd
  | .sll rd rs2 => packReg (regCode t .sll) rs2 rd
  | .srl rd rs2 => packReg (regCode t .srl) rs2 rd
  | .sra rd rs2 => packReg (regCode t .sra) rs2 rd
  | .or rd rs2 => packReg (regCode t .or) rs2 rd
  | .and rd rs2 => packReg (regCode t .and) rs2 rd
  | .xor rd rs2 => packReg (regCode t .xor) rs2 rd
  | .mv rd rs2 => packReg (regCode t .mv) rs2 rd
  | .jr rd => packReg (regCode t .jr) 0 rd
  | .jalr rd rs2 => packReg (regCode t .jalr) rs2 rd
  | .addi rd imm => packImm (immCode t .addi) rd imm
  | .slti rd imm => packImm (immCode t .slti) rd imm
  | .sltui rd imm => packImm (immCode t .sltui) rd imm
  | .ori rd imm => packImm (immCode t .ori) rd imm
  | .andi rd imm => packImm (immCode t .andi) rd imm
  | .xori rd imm => packImm (immCode t .xori) rd imm
  | .li rd imm => packImm (immCode t .li) rd imm
  | .slli rd shamt => packShift (shiftCode t .slli) rd shamt
  | .srli rd shamt => packShift (shiftCode t .srli) rd shamt
  | .srai rd shamt => packShift (shiftCode t .srai) rd shamt
  | .beq rs1 rs2 imm => packBranch (branchCode t .beq) rs1 rs2 imm
  | .bne rs1 rs2 imm => packBranch (branchCode t .bne) rs1 rs2 imm
  | .bz rs1 imm => packBranch (branchCode t .bz) rs1 0 imm
  | .bnz rs1 imm => packBranch (branchCode t .bnz) rs1 0 imm
  | .blt rs1 rs2 imm => packBranch (branchCode t .blt) rs1 rs2 imm
  | .bge rs1 rs2 imm => packBranch (branchCode t .bge) rs1 rs2 imm
  | .bltu rs1 rs2 imm => packBranch (branchCode t .bltu) rs1 rs2 imm
  | .bgeu rs1 rs2 imm => packBranch (branchCode t .bgeu) rs1 rs2 imm
  | .sb src base imm => packStore (storeCode t .sb) src base imm
  | .sw src base imm => packStore (storeCode t .sw) src base imm
  | .lb rd base imm => packLoad (loadCode t .lb) rd base imm
  | .lw rd base imm => packLoad (loadCode t .lw) rd base imm
  | .lbu rd base imm => packLoad (loadCode t .lbu) rd base imm
  | .j imm => packJump 0 0 imm
  | .jal rd imm => packJump 1 rd imm
  | .lui rd imm => packUpper 0 rd imm
  | .auipc rd imm => packUpper 1 rd imm
  | .ecall svc => packSystem svc

/-- The encoder that "rejects a displacement or immediate outside the ranges of rules R64 to R69" (rule R84). -/
def encodeChecked (t : Tables) (i : Instr) : Option Word := if i.wf then some (encode t i) else none

/-! ## Well-formed tables: every operation has a code that selects it, and no Imm operation sits in the shift group -/

/-- Each operation of `all` is selected by its own code. -/
def tableCovers {κ ω : Type} [DecidableEq κ] [DecidableEq ω] (t : CodeTable κ ω) (dflt : κ) (all : List ω) : Bool :=
  all.all fun o => decide (t.op (t.code dflt o) = some o)

/-- The RegReg operations (rule R71). -/
def allRegOps : List RegOp :=
  [.add, .sub, .slt, .sltu, .sll, .srl, .sra, .or, .and, .xor, .mv, .jr, .jalr]

/-- The Imm operations (rule R72). -/
def allImmOps : List ImmOp := [.addi, .slti, .sltui, .ori, .andi, .xori, .li]

/-- The shifts (rule R73). -/
def allShiftOps : List ShiftOp := [.slli, .srli, .srai]

/-- The branches (rule R74). -/
def allBranchOps : List BranchOp := [.beq, .bne, .bz, .bnz, .blt, .bge, .bltu, .bgeu]

/-- Tables under which all 41 instructions can be encoded (rules R71 to R76: a value of the parameters maps codes to
the format's operations; this says none is left out). -/
def tablesOk (t : Tables) : Bool :=
  tableCovers t.rFunct (0, 0) allRegOps && tableCovers t.iFunct3 0 allImmOps &&
    allImmOps.all (fun o => decide (immCode t o ≠ 3)) && tableCovers t.shiftMode 0 allShiftOps &&
    tableCovers t.bFunct3 0 allBranchOps && tableCovers t.sFunct3 0 [.sb, .sw] &&
    tableCovers t.lFunct3 0 [.lb, .lw, .lbu]

end Sys2Proof
end

