-- ==== Sys2Proof/Machine/Memory.lean ====
section
/-! DEFINITION. The 64 KiB byte memory (spec/20_memory.md rules R40 to R43), as a canonical list of cells: addresses
strictly rising and below 65536, no cell equal to what an unlisted address reads as. -/

namespace Sys2Proof.Machine

/-- The memory cells that differ from `unlistedByte`, in rising order of address. -/
abbrev Memory := List Host.Cell

/-- What an unlisted address reads as. DESIGN CHOICE, log entry 4, unsafe: the spec leaves the launch memory open
(rules R36, R222), and every launch memory is some canonical list; this byte is only what State.reset holds. -/
def unlistedByte : Byte := 0

/-- The byte at an address, `mem[a]` (rule R41). -/
def Memory.read : Memory → Nat → Byte
  | [], _ => unlistedByte
  | (b, v) :: rest, a => if b = a then v else Memory.read rest a

/-- A cell put in front, unless it is one an unlisted address reads as. -/
def Memory.cons (a : Nat) (v : Byte) (rest : Memory) : Memory := if v = unlistedByte then rest else (a, v) :: rest

/-- `mem[a] <- v` (rule R41), keeping the canonical form. -/
def Memory.write : Memory → Nat → Byte → Memory
  | [], a, v => Memory.cons a v []
  | (b, u) :: rest, a, v =>
    if a < b then Memory.cons a v ((b, u) :: rest)
    else if a = b then Memory.cons a v rest
    else (b, u) :: Memory.write rest a v

/-- `MemRead(a, 2) = mem[a] | (mem[a+1] << 8)` (rules R41, R42). -/
def Memory.readWord (m : Memory) (a : Nat) : Word := ofBytes (m.read a) (m.read (a + 1))

/-- `MemWrite(a, 2, v)`: `mem[a] <- v[7:0]; mem[a+1] <- v[15:8]` (rule R41). -/
def Memory.writeWord (m : Memory) (a : Nat) (v : Word) : Memory := (m.write a (loByte v)).write (a + 1) (hiByte v)

/-- Bytes written to rising addresses from `a` on. -/
def Memory.load (m : Memory) : Nat → List Byte → Memory
  | _, [] => m
  | a, v :: vs => Memory.load (m.write a v) (a + 1) vs

/-- The canonical form from address `lo` on. -/
def Memory.canonFrom : Nat → Memory → Bool
  | _, [] => true
  | lo, (a, v) :: rest =>
    decide (lo ≤ a) && decide (a < 65536) && decide (v ≠ unlistedByte) && Memory.canonFrom (a + 1) rest

/-- The canonical form: two memories in it that read alike are equal (Sys2Proof/Laws/Memory.lean). -/
def Memory.wf (m : Memory) : Bool := Memory.canonFrom 0 m

end Sys2Proof.Machine
end

