-- ==== Sys2Proof/Machine/Params.lean ====
section
/-! DEFINITION. The default values of the parameters of spec/00_scope.md rule R10. -/

namespace Sys2Proof.Machine

/-- The spec's defaults (rule R10; decisions D8, D9, D12, D13, D23 of spec/92_eei_decisions.md). -/
def defaultConfig : Config :=
  { tables := defaultTables, haltSvc := .svc3, unimplPolicy := .fault, oddFetch := .fault, jalrAlias := .afterLink,
    pcOverflow := .wrap }

/-- The service number a value of `HALT_SVC` names (rule R10). -/
def haltSvcNumber : HaltSvc → BitVec 10
  | .svc3 => 3
  | .svc3FF => 0x3FF

end Sys2Proof.Machine
end

