-- ==== Sys2Proof/Machine/State.lean ====
section
/-! DEFINITION. The architectural state of spec/10_state.md, `S = (x[0..7], pc, mem, status, out)`, with the parameters of
spec/00_scope.md rule R10 beside it; the state after reset; the reasons a step can stop. -/

namespace Sys2Proof.Machine

/-- Why a run halted normally (rules R31, R111). -/
inductive HaltCause
  /-- The halting ecall (rule R193). -/
  | ecall
  /-- Address-space exhaustion (rule R102; rule R108 with `exhaust`). -/
  | exhausted
  deriving DecidableEq, Repr

/-- Why a run faulted (rules R31, R202). -/
inductive FaultCause
  | addressingFault | unimplementedOperation | unterminatedString | misalignedFetch
  deriving DecidableEq, Repr

/-- The run status (rules R31, R201): a fault records the pc and the word of the instruction, no word for a misaligned
fetch. -/
inductive Status
  | running
  | halted (cause : HaltCause)
  | faulted (cause : FaultCause) (pc : Word) (word : Option Word)
  deriving DecidableEq, Repr

/-- An event of the output stream (rule R110). -/
inductive Event
  /-- Every fetch: the address, the word, the decoded record (rule R105). -/
  | trace (pc w : Word) (d : Decoded)
  /-- ecall 1: the value of a0 (rule R191). -/
  | printInt (v : Word)
  /-- ecall 5: the bytes of the string, without the NUL (rule R192). -/
  | printStr (bs : List Byte)
  /-- An unimplemented operation (rule R203). -/
  | unimplemented (pc w : Word)
  deriving DecidableEq, Repr

/-- The whole state. -/
structure State where
  /-- x0..x7 (rule R20). -/
  regs : Vector Word 8
  /-- The byte address of the next fetch; the instruction's own address while it executes (rule R25). -/
  pc : Word
  /-- The byte memory (rules R33, R40). -/
  mem : Memory
  /-- The run status (rule R31). -/
  status : Status
  /-- The output stream, oldest event first (rule R35). -/
  out : List Event
  /-- The parameters of rule R10, fixed for the run (log entry 1). -/
  cfg : Config
  deriving DecidableEq, Repr

/-- After reset (rules R36, R220): registers 0, pc 0, RUNNING, nothing emitted, the default parameters (rule R10); memory
lists nothing (log entry 4). -/
def State.reset : State :=
  { regs := Vector.replicate 8 0, pc := 0, mem := [], status := .running, out := [], cfg := defaultConfig }

/-- Why a state has no step: "HALTED is terminal; no transitions out" (rules R31, R109, R201). A fault of the
INSTRUCTIONS is no such reason: it is a next state with status FAULTED (log entry 5). -/
inductive Fault
  /-- Raised by `step` alone, in a state whose status is HALTED. Safe: the spec gives that state no step. -/
  | alreadyHalted
  /-- Raised by `step` alone, in a state whose status is FAULTED. Safe: the spec gives that state no step. -/
  | alreadyFaulted
  deriving DecidableEq, Repr

/-- Why an instruction has no meaning in the model. -/
inductive Refusal
  /-- Raised by `exec` for an instruction the model gives no meaning. Safe. No arm of `exec` raises it: all 41 have one. -/
  | notModelled (mnemonic : String)
  deriving DecidableEq, Repr

end Sys2Proof.Machine
end

