-- ==== Sys2Proof/Machine/Flags.lean ====
section
/-! DEFINITION. Comparisons. Z16 has no flags (spec/10_state.md rule R29): a comparison writes 0 or 1 to a register
(slt, sltu, slti, sltui) or is consumed by a branch (spec/43_branch.md). The left operand is rd_rs1 or rs1 (decision D7). -/

namespace Sys2Proof.Machine

/-- `cond ? 0x0001 : 0x0000` (rules R123, R124, R142, R143). -/
def boolWord (b : Bool) : Word := if b then 1 else 0

/-- `sint(a) < sint(b)`. -/
def ltSigned (a b : Word) : Bool := a.slt b

/-- `uint(a) < uint(b)`. -/
def ltUnsigned (a b : Word) : Bool := a.ult b

/-- beq (rule R161). -/
def condBeq (a b : Word) : Bool := decide (a = b)

/-- bne (rule R162). -/
def condBne (a b : Word) : Bool := !condBeq a b

/-- bz (rule R163). -/
def condBz (a : Word) : Bool := decide (a = 0)

/-- bnz (rule R164). -/
def condBnz (a : Word) : Bool := !condBz a

/-- blt (rule R165). -/
def condBlt (a b : Word) : Bool := ltSigned a b

/-- bge, "the exact negation of blt on the same operands" (rule R166). -/
def condBge (a b : Word) : Bool := !ltSigned a b

/-- bltu (rule R167). -/
def condBltu (a b : Word) : Bool := ltUnsigned a b

/-- bgeu, "the negation of bltu" (rule R168). -/
def condBgeu (a b : Word) : Bool := !ltUnsigned a b

end Sys2Proof.Machine
end

