-- ==== Sys2Proof/Machine/Ops.lean ====
section
/-! DEFINITION. The named operations over registers, pc, events and status that every instruction is built from, a fault
as one shared operation (spec/60_exceptions.md rule R201) and the unimplemented operation (rule R203). There is no return
from a fault: "there is no return-from-trap instruction" (rule R204). -/

namespace Sys2Proof.Machine

/-- `x[r]` (rules R13, R22: no register is hard-wired). -/
def State.reg (s : State) (r : RegIdx) : Word := s.regs[r.toNat]'r.isLt

/-- `x[r] <- v` (rules R13, R22: no register is read-only). -/
def State.setReg (s : State) (r : RegIdx) (v : Word) : State := { s with regs := s.regs.set r.toNat v r.isLt }

/-- `pc <- target` with a register's value as the target (rules R113, R132): no bit is masked. -/
def State.setPc (s : State) (target : Word) : State := { s with pc := target }

/-- A whole-memory replacement by one of the memory operations (rule R41). -/
def State.setMem (s : State) (m : Memory) : State := { s with mem := m }

/-- `emit e`: appended to the output stream (rules R13, R35). -/
def State.emit (s : State) (e : Event) : State := { s with out := s.out ++ [e] }

/-- `halt(cause)`: pc, registers and memory keep their values (rules R13, R193). -/
def State.halt (s : State) (c : HaltCause) : State := { s with status := .halted c }

/-- The exact value of `pc + off` (rule R108). -/
def State.exactPc (s : State) (off : Int) : Int := (s.pc.toNat : Int) + off

/-- `pc <- pc +16 off`, a sequential or pc-relative next pc (rules R106, R108): with `PC_OVERFLOW = exhaust` an exact
value outside 0..65535 halts instead, and pc keeps the instruction's address. -/
def State.movePc (s : State) (off : Int) : State :=
  if s.cfg.pcOverflow = .exhaust ∧ ¬(0 ≤ s.exactPc off ∧ s.exactPc off < 65536) then s.halt .exhausted
  else { s with pc := s.pc + BitVec.ofInt 16 off }

/-- The default control rule: `pc <- pc +16 2` (rules R26, R106). -/
def State.advance (s : State) : State := s.movePc 2

/-- The word at the pc, `MemRead(pc, 2)` (rule R104): the word of the instruction being executed, since no meaning reads
it after writing memory (log entry 6). -/
def State.instrWord (s : State) : Word := s.mem.readWord s.pc.toNat

/-- The word a fault records: none for a misaligned fetch, which has fetched nothing (rules R201, R202). -/
def faultWord (s : State) : FaultCause → Option Word
  | .addressingFault => some s.instrWord
  | .unimplementedOperation => some s.instrWord
  | .unterminatedString => some s.instrWord
  | .misalignedFetch => none

/-- `raise Fault(cause)`: status FAULTED with the instruction's address and word, and nothing else of the instruction
(rules R13, R201). Every fault of the spec is this operation, applied to the state before the instruction's writes. -/
def State.raiseFault (s : State) (c : FaultCause) : State := { s with status := .faulted c s.pc (faultWord s c) }

/-- The codes of the fault causes (rule R202; labels only, decision D20). -/
def faultCode : FaultCause → Nat
  | .addressingFault => 1
  | .unimplementedOperation => 2
  | .unterminatedString => 3
  | .misalignedFetch => 4

/-- `unimplemented()` (rule R203): the event, then by `UNIMPL_POLICY` a fault or the next instruction. -/
def State.unimplemented (s : State) : State :=
  let told := s.emit (.unimplemented s.pc s.instrWord)
  match s.cfg.unimplPolicy with
  | .fault => told.raiseFault .unimplementedOperation
  | .continues => told.advance

end Sys2Proof.Machine
end

