-- ==== Sys2Proof/Machine/Operands.lean ====
section
/-! DEFINITION. The operand forms: shift amounts, effective addresses with their bounds check, link values. The
immediates are assembled by the decoder (Sys2Proof/Decode.lean). -/

namespace Sys2Proof.Machine

/-- `x[rs2][3:0]`: only the low 4 bits of the amount count (rule R125). -/
def shiftAmount (v : Word) : Nat := (v.extractLsb' 0 4).toNat

/-- `EA = uint(x[rs2]) + sint(imm)`, the exact integer (rule R44). -/
def effectiveAddress (s : State) (base : RegIdx) (imm : Word) : Int := ((s.reg base).toNat : Int) + imm.toInt

/-- The bounds check of an access of `n` bytes (rule R44): the address, if `EA ≥ 0` and `EA + n − 1 < 65536`. -/
def boundsCheck (ea : Int) (n : Nat) : Option Nat := if 0 ≤ ea ∧ ea + n - 1 < 65536 then some ea.toNat else none

/-- The address an access of `n` bytes at `imm(base)` is admitted at (rule R44). -/
def accessAddress (s : State) (base : RegIdx) (imm : Word) (n : Nat) : Option Nat :=
  boundsCheck (effectiveAddress s base imm) n

/-- The link value `pc +16 2`; it wraps (rules R27, R114). -/
def linkValue (s : State) : Word := s.pc + 2

end Sys2Proof.Machine
end

