-- ==== Sys2Proof/Machine/Branch.lean ====
section
/-! DEFINITION. The Branch instructions (spec/43_branch.md rules R160 to R168). -/

namespace Sys2Proof.Machine

open Host (Outcome)

/-- The family's common form: `if cond: pc <- pc +16 imm else: pc <- pc +16 2` (rule R160). -/
def branchIf (cond : Bool) (imm : Word) (s : State) : Outcome State Fault Refusal :=
  .next (if cond then s.movePc imm.toInt else s.advance)

/-- beq, rule R161. -/
def execBeq (rs1 rs2 : RegIdx) (imm : Word) (s : State) : Outcome State Fault Refusal :=
  branchIf (condBeq (s.reg rs1) (s.reg rs2)) imm s

/-- bne, rule R162. -/
def execBne (rs1 rs2 : RegIdx) (imm : Word) (s : State) : Outcome State Fault Refusal :=
  branchIf (condBne (s.reg rs1) (s.reg rs2)) imm s

/-- bz, rule R163. -/
def execBz (rs1 : RegIdx) (imm : Word) (s : State) : Outcome State Fault Refusal :=
  branchIf (condBz (s.reg rs1)) imm s

/-- bnz, rule R164. -/
def execBnz (rs1 : RegIdx) (imm : Word) (s : State) : Outcome State Fault Refusal :=
  branchIf (condBnz (s.reg rs1)) imm s

/-- blt, rule R165. -/
def execBlt (rs1 rs2 : RegIdx) (imm : Word) (s : State) : Outcome State Fault Refusal :=
  branchIf (condBlt (s.reg rs1) (s.reg rs2)) imm s

/-- bge, rule R166. -/
def execBge (rs1 rs2 : RegIdx) (imm : Word) (s : State) : Outcome State Fault Refusal :=
  branchIf (condBge (s.reg rs1) (s.reg rs2)) imm s

/-- bltu, rule R167. -/
def execBltu (rs1 rs2 : RegIdx) (imm : Word) (s : State) : Outcome State Fault Refusal :=
  branchIf (condBltu (s.reg rs1) (s.reg rs2)) imm s

/-- bgeu, rule R168. -/
def execBgeu (rs1 rs2 : RegIdx) (imm : Word) (s : State) : Outcome State Fault Refusal :=
  branchIf (condBgeu (s.reg rs1) (s.reg rs2)) imm s

end Sys2Proof.Machine
end

