-- ==== Sys2Proof/Machine/Imm.lean ====
section
/-! DEFINITION. The Imm instructions (spec/42_immediate.md rules R140 to R150). `imm` is the decoder's extended immediate (rule R64). -/

namespace Sys2Proof.Machine

open Host (Outcome)

/-- The family's common form: `x[rd] <- f x[rd]`, then `pc +16 2` (rule R140). -/
def immOp (f : Word → Word) (rd : RegIdx) (s : State) : Outcome State Fault Refusal :=
  .next (s.setReg rd (f (s.reg rd))).advance

/-- addi, rule R141. -/
def execAddi (rd : RegIdx) (imm : Word) (s : State) : Outcome State Fault Refusal := immOp (fun a => a + imm) rd s

/-- slti, rule R142. -/
def execSlti (rd : RegIdx) (imm : Word) (s : State) : Outcome State Fault Refusal := immOp (fun a => boolWord (ltSigned a imm)) rd s

/-- sltui, rule R143. -/
def execSltui (rd : RegIdx) (imm : Word) (s : State) : Outcome State Fault Refusal := immOp (fun a => boolWord (ltUnsigned a imm)) rd s

/-- ori, rule R147. -/
def execOri (rd : RegIdx) (imm : Word) (s : State) : Outcome State Fault Refusal := immOp (fun a => a ||| imm) rd s

/-- andi, rule R148. -/
def execAndi (rd : RegIdx) (imm : Word) (s : State) : Outcome State Fault Refusal := immOp (fun a => a &&& imm) rd s

/-- xori, rule R149. -/
def execXori (rd : RegIdx) (imm : Word) (s : State) : Outcome State Fault Refusal := immOp (fun a => a ^^^ imm) rd s

/-- li, rule R150. -/
def execLi (rd : RegIdx) (imm : Word) (s : State) : Outcome State Fault Refusal := immOp (fun _ => imm) rd s

/-- slli, rule R144. -/
def execSlli (rd : RegIdx) (shamt : BitVec 4) (s : State) : Outcome State Fault Refusal :=
  immOp (fun a => a <<< shamt.toNat) rd s

/-- srli, rule R145. -/
def execSrli (rd : RegIdx) (shamt : BitVec 4) (s : State) : Outcome State Fault Refusal :=
  immOp (fun a => a >>> shamt.toNat) rd s

/-- srai, rule R146. -/
def execSrai (rd : RegIdx) (shamt : BitVec 4) (s : State) : Outcome State Fault Refusal :=
  immOp (fun a => a.sshiftRight shamt.toNat) rd s

end Sys2Proof.Machine
end

