-- ==== Sys2Proof/Machine/JumpUpper.lean ====
section
/-! DEFINITION. The Jump and Upper instructions (spec/45_jump_upper.md rules R180 to R185). -/

namespace Sys2Proof.Machine

open Host (Outcome)

/-- j, rule R181. -/
def execJ (imm : Word) (s : State) : Outcome State Fault Refusal := .next (s.movePc imm.toInt)

/-- jal, rule R182: the link, then the jump relative to the instruction's own pc. -/
def execJal (rd : RegIdx) (imm : Word) (s : State) : Outcome State Fault Refusal :=
  .next ((s.setReg rd (linkValue s)).movePc imm.toInt)

/-- lui, rule R184. -/
def execLui (rd : RegIdx) (imm : Word) (s : State) : Outcome State Fault Refusal := .next (s.setReg rd imm).advance

/-- auipc, rule R185: relative to the instruction's own pc; the sum wraps. -/
def execAuipc (rd : RegIdx) (imm : Word) (s : State) : Outcome State Fault Refusal :=
  .next (s.setReg rd (s.pc + imm)).advance

end Sys2Proof.Machine
end

