-- ==== Sys2Proof/Machine/LoadStore.lean ====
section
/-! DEFINITION. The Store and Load instructions (spec/44_load_store.md rules R170 to R175). An access that the bounds check of rule R44
turns away takes the AddressingFault, with nothing written. -/

namespace Sys2Proof.Machine

open Host (Outcome)

/-- A store of `n` bytes: `put m a` is the memory with the value stored at the admitted address `a` (rules R170, R44). -/
def storeOp (n : Nat) (put : Memory → Nat → Memory) (base : RegIdx) (imm : Word) (s : State) : Outcome State Fault Refusal :=
  match accessAddress s base imm n with
  | some a => .next (s.setMem (put s.mem a)).advance
  | none => .next (s.raiseFault .addressingFault)

/-- A load of `n` bytes: `get m a` is the value read at the admitted address `a` (rules R170, R44). -/
def loadOp (n : Nat) (get : Memory → Nat → Word) (rd base : RegIdx) (imm : Word) (s : State) : Outcome State Fault Refusal :=
  match accessAddress s base imm n with
  | some a => .next (s.setReg rd (get s.mem a)).advance
  | none => .next (s.raiseFault .addressingFault)

/-- sb, rule R171. -/
def execSb (src base : RegIdx) (imm : Word) (s : State) : Outcome State Fault Refusal :=
  storeOp 1 (fun m a => m.write a (loByte (s.reg src))) base imm s

/-- sw, rule R172. -/
def execSw (src base : RegIdx) (imm : Word) (s : State) : Outcome State Fault Refusal :=
  storeOp 2 (fun m a => m.writeWord a (s.reg src)) base imm s

/-- lb, rule R173: sign-extended. -/
def execLb (rd base : RegIdx) (imm : Word) (s : State) : Outcome State Fault Refusal :=
  loadOp 1 (fun m a => (m.read a).signExtend 16) rd base imm s

/-- lw, rule R174. -/
def execLw (rd base : RegIdx) (imm : Word) (s : State) : Outcome State Fault Refusal :=
  loadOp 2 (fun m a => m.readWord a) rd base imm s

/-- lbu, rule R175: zero-extended. -/
def execLbu (rd base : RegIdx) (imm : Word) (s : State) : Outcome State Fault Refusal :=
  loadOp 1 (fun m a => (m.read a).zeroExtend 16) rd base imm s

end Sys2Proof.Machine
end

