-- ==== Sys2Proof/Machine/RegReg.lean ====
section
/-! DEFINITION. The RegReg instructions (spec/41_regreg.md rules R120 to R133). -/

namespace Sys2Proof.Machine

open Host (Outcome)

/-- The family's common form: both sources are read before `x[rd]` is written, then `pc +16 2` (rule R120). -/
def regOp (f : Word → Word → Word) (rd rs2 : RegIdx) (s : State) : Outcome State Fault Refusal :=
  .next (s.setReg rd (f (s.reg rd) (s.reg rs2))).advance

/-- add, rule R121. -/
def execAdd (rd rs2 : RegIdx) (s : State) : Outcome State Fault Refusal := regOp (fun a b => a + b) rd rs2 s

/-- sub, rule R122. -/
def execSub (rd rs2 : RegIdx) (s : State) : Outcome State Fault Refusal := regOp (fun a b => a - b) rd rs2 s

/-- slt, rule R123. -/
def execSlt (rd rs2 : RegIdx) (s : State) : Outcome State Fault Refusal := regOp (fun a b => boolWord (ltSigned a b)) rd rs2 s

/-- sltu, rule R124. -/
def execSltu (rd rs2 : RegIdx) (s : State) : Outcome State Fault Refusal := regOp (fun a b => boolWord (ltUnsigned a b)) rd rs2 s

/-- sll, rule R125. -/
def execSll (rd rs2 : RegIdx) (s : State) : Outcome State Fault Refusal := regOp (fun a b => a <<< shiftAmount b) rd rs2 s

/-- srl, rule R126. -/
def execSrl (rd rs2 : RegIdx) (s : State) : Outcome State Fault Refusal := regOp (fun a b => a >>> shiftAmount b) rd rs2 s

/-- sra, rule R127. -/
def execSra (rd rs2 : RegIdx) (s : State) : Outcome State Fault Refusal := regOp (fun a b => a.sshiftRight (shiftAmount b)) rd rs2 s

/-- or, rule R128. -/
def execOr (rd rs2 : RegIdx) (s : State) : Outcome State Fault Refusal := regOp (fun a b => a ||| b) rd rs2 s

/-- and, rule R129. -/
def execAnd (rd rs2 : RegIdx) (s : State) : Outcome State Fault Refusal := regOp (fun a b => a &&& b) rd rs2 s

/-- xor, rule R130. -/
def execXor (rd rs2 : RegIdx) (s : State) : Outcome State Fault Refusal := regOp (fun a b => a ^^^ b) rd rs2 s

/-- mv, rule R131. -/
def execMv (rd rs2 : RegIdx) (s : State) : Outcome State Fault Refusal := regOp (fun _ b => b) rd rs2 s

/-- jr, rule R132: the register's value is the next pc, unmasked; no register is written. -/
def execJr (rd : RegIdx) (s : State) : Outcome State Fault Refusal := .next (s.setPc (s.reg rd))

/-- The target of jalr (rule R133): by `JALR_ALIAS`, x[rs2] read after or before the link is written. -/
def jalrTarget (s linked : State) (rs2 : RegIdx) : Word :=
  match s.cfg.jalrAlias with
  | .afterLink => linked.reg rs2
  | .beforeLink => s.reg rs2

/-- jalr, rule R133: the link is written first. -/
def execJalr (rd rs2 : RegIdx) (s : State) : Outcome State Fault Refusal :=
  let linked := s.setReg rd (linkValue s)
  .next (linked.setPc (jalrTarget s linked rs2))

end Sys2Proof.Machine
end

