-- ==== Sys2Proof/Machine/System.lean ====
section
/-! DEFINITION. The System instruction and its services (spec/46_system.md rules R190 to R195). -/

namespace Sys2Proof.Machine

open Host (Outcome)

/-- a0, which services 1 and 5 read (rule R23). -/
def a0 : RegIdx := 6

/-- The NUL-terminated string of rule R192: the bytes from address `a` up to the first 0 among `n` bytes, without it. -/
def scanString (m : Memory) : Nat → Nat → Option (List Byte)
  | 0, _ => none
  | n + 1, a => if m.read a = 0 then some [] else (scanString m n (a + 1)).map (m.read a :: ·)

/-- The string at `a`, looked for up to the end of memory: the scan does not wrap (rule R192). -/
def stringAt (m : Memory) (a : Nat) : Option (List Byte) := scanString m (65536 - a) a

/-- The integer service 1 prints, `sint(x[6])` (rule R191). -/
def printedInt (v : Word) : Int := v.toInt

/-- Service 1, print integer (rule R191). -/
def printIntService (s : State) : State := (s.emit (.printInt (s.reg a0))).advance

/-- Service 5, print string (rule R192): without a terminator nothing is emitted and the instruction faults. -/
def printStrService (s : State) : State :=
  match stringAt s.mem (s.reg a0).toNat with
  | some bs => (s.emit (.printStr bs)).advance
  | none => s.raiseFault .unterminatedString

/-- The halt service (rule R193): pc is not advanced. -/
def haltService (s : State) : State := s.halt .ecall

/-- ecall, rule R190: the dispatch on svc; any other value is an unimplemented operation (rule R194). -/
def execEcall (svc : BitVec 10) (s : State) : Outcome State Fault Refusal :=
  .next
    (if svc = haltSvcNumber s.cfg.haltSvc then haltService s
    else if svc = 1 then printIntService s
    else if svc = 5 then printStrService s
    else s.unimplemented)

end Sys2Proof.Machine
end

