-- ==== Sys2Proof/Machine/Dispatch.lean ====
section
/-! DEFINITION. exec: one arm per instruction, each one direct call of its meaning. -/

namespace Sys2Proof.Machine

def exec (i : Instr) (s : State) : Host.Outcome State Fault Refusal :=
  match i with
  | .add rd rs2 => Sys2Proof.Machine.execAdd rd rs2 s
  | .sub rd rs2 => Sys2Proof.Machine.execSub rd rs2 s
  | .slt rd rs2 => Sys2Proof.Machine.execSlt rd rs2 s
  | .sltu rd rs2 => Sys2Proof.Machine.execSltu rd rs2 s
  | .sll rd rs2 => Sys2Proof.Machine.execSll rd rs2 s
  | .srl rd rs2 => Sys2Proof.Machine.execSrl rd rs2 s
  | .sra rd rs2 => Sys2Proof.Machine.execSra rd rs2 s
  | .or rd rs2 => Sys2Proof.Machine.execOr rd rs2 s
  | .and rd rs2 => Sys2Proof.Machine.execAnd rd rs2 s
  | .xor rd rs2 => Sys2Proof.Machine.execXor rd rs2 s
  | .mv rd rs2 => Sys2Proof.Machine.execMv rd rs2 s
  | .jr rd => Sys2Proof.Machine.execJr rd s
  | .jalr rd rs2 => Sys2Proof.Machine.execJalr rd rs2 s
  | .addi rd imm => Sys2Proof.Machine.execAddi rd imm s
  | .slti rd imm => Sys2Proof.Machine.execSlti rd imm s
  | .sltui rd imm => Sys2Proof.Machine.execSltui rd imm s
  | .ori rd imm => Sys2Proof.Machine.execOri rd imm s
  | .andi rd imm => Sys2Proof.Machine.execAndi rd imm s
  | .xori rd imm => Sys2Proof.Machine.execXori rd imm s
  | .li rd imm => Sys2Proof.Machine.execLi rd imm s
  | .slli rd shamt => Sys2Proof.Machine.execSlli rd shamt s
  | .srli rd shamt => Sys2Proof.Machine.execSrli rd shamt s
  | .srai rd shamt => Sys2Proof.Machine.execSrai rd shamt s
  | .beq rs1 rs2 imm => Sys2Proof.Machine.execBeq rs1 rs2 imm s
  | .bne rs1 rs2 imm => Sys2Proof.Machine.execBne rs1 rs2 imm s
  | .bz rs1 imm => Sys2Proof.Machine.execBz rs1 imm s
  | .bnz rs1 imm => Sys2Proof.Machine.execBnz rs1 imm s
  | .blt rs1 rs2 imm => Sys2Proof.Machine.execBlt rs1 rs2 imm s
  | .bge rs1 rs2 imm => Sys2Proof.Machine.execBge rs1 rs2 imm s
  | .bltu rs1 rs2 imm => Sys2Proof.Machine.execBltu rs1 rs2 imm s
  | .bgeu rs1 rs2 imm => Sys2Proof.Machine.execBgeu rs1 rs2 imm s
  | .sb src base imm => Sys2Proof.Machine.execSb src base imm s
  | .sw src base imm => Sys2Proof.Machine.execSw src base imm s
  | .lb rd base imm => Sys2Proof.Machine.execLb rd base imm s
  | .lw rd base imm => Sys2Proof.Machine.execLw rd base imm s
  | .lbu rd base imm => Sys2Proof.Machine.execLbu rd base imm s
  | .j imm => Sys2Proof.Machine.execJ imm s
  | .jal rd imm => Sys2Proof.Machine.execJal rd imm s
  | .lui rd imm => Sys2Proof.Machine.execLui rd imm s
  | .auipc rd imm => Sys2Proof.Machine.execAuipc rd imm s
  | .ecall svc => Sys2Proof.Machine.execEcall svc s

end Sys2Proof.Machine
end

