-- ==== Sys2Proof/Machine/Fetch.lean ====
section
/-! DEFINITION. The front of a step, up to the decoded instruction (spec/40_sequencer.md rules R102 to R105, R109), in the
order of spec/60_exceptions.md rule R205; and placing a word where the next step fetches. -/

namespace Sys2Proof.Machine

/-- What the front of a step comes to. -/
inductive Fetched
  /-- The status is not RUNNING: the state has no step (rule R109). -/
  | noStep (f : Fault)
  /-- The step ends before any instruction executes, in this state. -/
  | ended (s : State)
  /-- The instruction is to be executed in this state, its trace emitted. -/
  | instr (i : Instr) (s : State)
  deriving DecidableEq, Repr

/-- `pc + 1 >= MEM_SIZE` (rule R102). -/
def exhausted (pc : Word) : Bool := decide (65536 ≤ pc.toNat + 1)

/-- `pc[0] = 1` (rule R103). -/
def oddPc (pc : Word) : Bool := decide (pc.toNat % 2 = 1)

/-- Fetch, decode and trace (rules R104, R105); an UNIMPL word runs `unimplemented()` (rules R109, R203). -/
def fetchDecode (s : State) : Fetched :=
  let d := decode s.cfg.tables s.instrWord
  let traced := s.emit (.trace s.pc s.instrWord d)
  match recordInstr d with
  | .ok i => .instr i traced
  | .error _ => .ended traced.unimplemented

/-- The front of a running step: exhaustion, then an odd pc, then the fetch (rules R102, R103, R205). -/
def fetchRunning (s : State) : Fetched :=
  if exhausted s.pc then .ended (s.halt .exhausted)
  else if oddPc s.pc ∧ s.cfg.oddFetch = .fault then .ended (s.raiseFault .misalignedFetch)
  else fetchDecode s

/-- The front of a step (rule R109); HALTED and FAULTED are terminal (rules R31, R201). -/
def fetchStage (s : State) : Fetched :=
  match s.status with
  | .running => fetchRunning s
  | .halted _ => .noStep .alreadyHalted
  | .faulted _ _ _ => .noStep .alreadyFaulted

/-- The word stored at the pc, the low byte first (rule R42): where the next step fetches. -/
def placeWord (s : State) (w : Word) : State := s.setMem (s.mem.writeWord s.pc.toNat w)

end Sys2Proof.Machine
end

