-- ==== Sys2Proof/Machine/Step.lean ====
section
/-! DEFINITION. One step (spec/40_sequencer.md rule R109): the front of the step, then the decoded instruction. -/

namespace Sys2Proof.Machine

/-- One step of the machine. -/
def step (s : State) : Host.Outcome State Fault Refusal :=
  match fetchStage s with
  | .noStep f => .fault f
  | .ended s' => .next s'
  | .instr i s' => exec i s'

/-- `s` with the instruction whose bits are `w` (the first `nbits` of them given) stored at its pc, so that the next step
fetches and runs it. -/
def State.withFetchWord (s : State) (nbits w : Nat) : State := placeWord s (BitVec.ofNat 16 (w % 2 ^ nbits))

end Sys2Proof.Machine
end

