-- ==== Sys2Proof/Machine/Launch.lean ====
section
/-! DEFINITION. How a run is launched (spec/70_reset_and_hazards.md rules R220, R222, R223): the parameters and the image,
which may be all 65536 bytes (INIT_MEM, spec/00_scope.md rule R10), are given from outside. -/

namespace Sys2Proof.Machine

/-- The state a run starts in: reset, with the parameters `c` and the image loaded "starting at address 0" (rules R36,
R222). An image longer than the memory is the loader's to refuse (spec/93_implementation_defined.md). -/
def launch (c : Config) (image : List Byte) : Option State :=
  if image.length ≤ 65536 then some { State.reset with mem := Memory.load [] 0 image, cfg := c } else none

end Sys2Proof.Machine
end

