-- ==== Sys2Proof/Safety.lean ====
section
/-! DEFINITION. What counts as a good end and a safe run (spec/40_sequencer.md rule R111), and the terms the statements of
Sys2Proof/Certificates/Slice0/Obligations.lean are written in. The terms restate the spec's arithmetic on plain integers,
beside the model's bit-vector operations, not through them. -/

namespace Sys2Proof

open Machine

/-! ## Ends of a run -/

/-- The run has ended normally, by the halting ecall or by exhaustion (rule R111). -/
def endedNormally : Status → Bool
  | .running => false
  | .halted _ => true
  | .faulted _ _ _ => false

/-- The run has ended abnormally (rule R111). -/
def endedAbnormally : Status → Bool
  | .running => false
  | .halted _ => false
  | .faulted _ _ _ => true

/-- No state of the run from `s` is FAULTED: the premise or conclusion rule R111 asks of a claim about a program. -/
def NeverFaulted (s : State) : Prop :=
  ∀ n t, Host.Core.run core n s = .next t → endedAbnormally t.status = false

/-- The invariant of every state a run reaches: the memory is in its canonical form. -/
abbrev StateInv (s : State) : Prop := s.mem.wf = true

/-! ## Numbers (rule R12) -/

/-- `sext_n(v)`: v if `v[n−1] = 0`, else `v + 65536 − 2^n`. -/
def sextNat (n v : Nat) : Word :=
  if v < 2 ^ (n - 1) then BitVec.ofNat 16 v else BitVec.ofNat 16 (v + 65536 - 2 ^ n)

/-- `w[15:9]` as a number (rule R64). -/
def imm7Nat (w : Word) : Nat := w.toNat / 512

/-- `sext_5(w[15:12] << 1)` (rule R66). -/
def branchDisp (w : Word) : Word := sextNat 5 ((w.toNat / 4096) <<< 1)

/-- `sext_4(w[15:12])` (rule R67). -/
def memOffset (w : Word) : Word := sextNat 4 (w.toNat / 4096)

/-- `sext_10((w[14:9] << 4) | (w[5:3] << 1))` (rule R68). -/
def jumpDisp (w : Word) : Word := sextNat 10 ((w.toNat / 512 % 64) <<< 4 ||| (w.toNat / 8 % 8) <<< 1)

/-- `(w[14:9] << 10) | (w[5:3] << 7)` (rule R69). -/
def upperValue (w : Word) : Word := BitVec.ofNat 16 ((w.toNat / 512 % 64) <<< 10 ||| (w.toNat / 8 % 8) <<< 7)

/-- Under the tables `t`, every word that matches a row of the opcode table spells the instruction `f` of it. -/
def Spells (t : Tables) (pattern mask : Word) (f : Word → Instr) : Prop :=
  ∀ w : Word, w &&& mask = pattern → decodeWord t w = .ok (f w)

/-! ## What a step or an instruction leaves and changes -/

/-- The next pc is `pc + off` (rules R106, R108): modulo 65536, except that under `PC_OVERFLOW = exhaust` an exact value
outside 0..65535 halts with Exhausted and leaves pc. -/
def PcMoved (s t : State) (off : Int) : Prop :=
  if s.cfg.pcOverflow = .exhaust ∧ ((s.pc.toNat : Int) + off < 0 ∨ 65536 ≤ (s.pc.toNat : Int) + off) then
    t.pc = s.pc ∧ t.status = .halted .exhausted
  else (t.pc.toNat : Int) = ((s.pc.toNat : Int) + off) % 65536 ∧ t.status = s.status

/-- Every register but `rd` reads as before. -/
def RegsButSame (s t : State) (rd : RegIdx) : Prop := ∀ r, r ≠ rd → t.reg r = s.reg r

/-- Every register reads as before. -/
def RegsSame (s t : State) : Prop := ∀ r, t.reg r = s.reg r

/-- Every byte of memory reads as before. -/
def MemSame (s t : State) : Prop := ∀ a, t.mem.read a = s.mem.read a

/-- Nothing was emitted, and the parameters are as before. -/
def QuietSame (s t : State) : Prop := t.out = s.out ∧ t.cfg = s.cfg

/-- The instruction completes: it leaves `v` with `P v` in `rd`, moves to the next instruction, and changes nothing else. -/
def WritesReg (i : Instr) (s : State) (rd : RegIdx) (P : Word → Prop) : Prop :=
  ∃ t, exec i s = .next t ∧ P (t.reg rd) ∧ RegsButSame s t rd ∧ MemSame s t ∧ QuietSame s t ∧ PcMoved s t 2

/-- The branch completes: the pc moves by the displacement if the condition holds and by 2 if not; nothing else changes. -/
def BranchesOn (i : Instr) (s : State) (cond : Prop) (imm : Word) : Prop :=
  ∃ t, exec i s = .next t ∧ RegsSame s t ∧ MemSame s t ∧ QuietSame s t ∧
    (cond → PcMoved s t imm.toInt) ∧ (¬cond → PcMoved s t 2)

/-- `t` is `s` with the fault `c` raised at the pc, its word recorded, and nothing else changed (rule R201). -/
def FaultsWith (s t : State) (c : FaultCause) : Prop :=
  ∃ w : Word, w.toNat = (s.mem.read s.pc.toNat).toNat + 256 * (s.mem.read (s.pc.toNat + 1)).toNat ∧
    t = { s with status := .faulted c s.pc (some w) }

/-- The exact effective address (rule R44). -/
def eaInt (s : State) (base : RegIdx) (imm : Word) : Int := ((s.reg base).toNat : Int) + imm.toInt

/-- The effective address of an `n`-byte access is admitted (rule R44). -/
abbrev EaOk (s : State) (base : RegIdx) (imm : Word) (n : Int) : Prop :=
  0 ≤ eaInt s base imm ∧ eaInt s base imm + n - 1 < 65536

/-- A running state whose fetch passes the checks of rules R102 and R103. -/
abbrev Fetches (s : State) : Prop :=
  s.status = .running ∧ s.pc.toNat + 1 < 65536 ∧ (s.pc.toNat % 2 = 1 → s.cfg.oddFetch = .unaligned)

/-- The word at the pc, the low byte first (rule R104). -/
abbrev FetchedWord (s : State) (w : Word) : Prop :=
  w.toNat = (s.mem.read s.pc.toNat).toNat + 256 * (s.mem.read (s.pc.toNat + 1)).toNat

/-- `s` with the trace record of the word `w` emitted (rule R105). -/
def traced (s : State) (w : Word) : State :=
  { s with out := s.out ++ [.trace s.pc w (decode s.cfg.tables w)] }

/-- The events of `es` that are trace records. -/
def traceCount (es : List Event) : Nat :=
  (es.filter fun e => match e with | .trace _ _ _ => true | _ => false).length

/-- A store. -/
def isStore : Instr → Bool
  | .sb _ _ _ => true
  | .sw _ _ _ => true
  | _ => false

/-- What a store or a load accesses: its base register, its offset and its width in bytes (rules R170 to R175). -/
def memAccess : Instr → Option (RegIdx × Word × Int)
  | .sb _ base imm => some (base, imm, 1)
  | .sw _ base imm => some (base, imm, 2)
  | .lb _ base imm => some (base, imm, 1)
  | .lw _ base imm => some (base, imm, 2)
  | .lbu _ base imm => some (base, imm, 1)
  | _ => none

/-- jr or jalr. -/
def isRegJump : Instr → Bool
  | .jr _ => true
  | .jalr _ _ => true
  | _ => false

/-- The register an instruction writes, if it writes one (rule R24). -/
def destReg : Instr → Option RegIdx
  | .add rd _ => some rd
  | .sub rd _ => some rd
  | .slt rd _ => some rd
  | .sltu rd _ => some rd
  | .sll rd _ => some rd
  | .srl rd _ => some rd
  | .sra rd _ => some rd
  | .or rd _ => some rd
  | .and rd _ => some rd
  | .xor rd _ => some rd
  | .mv rd _ => some rd
  | .jr _ => none
  | .jalr rd _ => some rd
  | .addi rd _ => some rd
  | .slti rd _ => some rd
  | .sltui rd _ => some rd
  | .ori rd _ => some rd
  | .andi rd _ => some rd
  | .xori rd _ => some rd
  | .li rd _ => some rd
  | .slli rd _ => some rd
  | .srli rd _ => some rd
  | .srai rd _ => some rd
  | .beq _ _ _ => none
  | .bne _ _ _ => none
  | .bz _ _ => none
  | .bnz _ _ => none
  | .blt _ _ _ => none
  | .bge _ _ _ => none
  | .bltu _ _ _ => none
  | .bgeu _ _ _ => none
  | .sb _ _ _ => none
  | .sw _ _ _ => none
  | .lb rd _ _ => some rd
  | .lw rd _ _ => some rd
  | .lbu rd _ _ => some rd
  | .j _ => none
  | .jal rd _ => some rd
  | .lui rd _ => some rd
  | .auipc rd _ => some rd
  | .ecall _ => none

/-! ## The opcode table -/

/-- Rows of spec/opcode_table.json: match, mask, and the operation the decoder names; RegReg. -/
def regRegRows : List (Word × Word × Op) :=
  [(0x0000, 0xF03F, .reg .add), (0x1000, 0xF03F, .reg .sub), (0x2008, 0xF03F, .reg .slt),
   (0x3010, 0xF03F, .reg .sltu), (0x4018, 0xF03F, .reg .sll), (0x5018, 0xF03F, .reg .srl),
   (0x6018, 0xF03F, .reg .sra), (0x7020, 0xF03F, .reg .or), (0x8028, 0xF03F, .reg .and),
   (0x9030, 0xF03F, .reg .xor), (0xA038, 0xF03F, .reg .mv), (0xB000, 0xF03F, .reg .jr),
   (0xC000, 0xF03F, .reg .jalr)]

/-- The Imm rows. -/
def immRows : List (Word × Word × Op) :=
  [(0x0001, 0x003F, .imm .addi), (0x0009, 0x003F, .imm .slti), (0x0011, 0x003F, .imm .sltui),
   (0x0021, 0x003F, .imm .ori), (0x0029, 0x003F, .imm .andi), (0x0031, 0x003F, .imm .xori),
   (0x0039, 0x003F, .imm .li), (0x2019, 0xE03F, .shift .slli), (0x4019, 0xE03F, .shift .srli),
   (0x8019, 0xE03F, .shift .srai)]

/-- The Branch, Store and Load rows. -/
def branchMemRows : List (Word × Word × Op) :=
  [(0x0002, 0x003F, .branch .beq), (0x000A, 0x003F, .branch .bne), (0x0012, 0x003F, .branch .bz),
   (0x001A, 0x003F, .branch .bnz), (0x0022, 0x003F, .branch .blt), (0x002A, 0x003F, .branch .bge),
   (0x0032, 0x003F, .branch .bltu), (0x003A, 0x003F, .branch .bgeu), (0x0003, 0x003F, .store .sb),
   (0x000B, 0x003F, .store .sw), (0x0004, 0x003F, .load .lb), (0x000C, 0x003F, .load .lw),
   (0x0024, 0x003F, .load .lbu)]

/-- The Jump, Upper and System rows. -/
def jumpSystemRows : List (Word × Word × Op) :=
  [(0x0005, 0x8007, .j), (0x8005, 0x8007, .jal), (0x0006, 0x8007, .lui), (0x8006, 0x8007, .auipc),
   (0x0007, 0x003F, .ecall)]

/-- All 41 rows of spec/opcode_table.json. -/
def opcodeRows : List (Word × Word × Op) := regRegRows ++ immRows ++ branchMemRows ++ jumpSystemRows

/-- The word of an instruction with its don't-care fields cleared: rs2 of jr, bz and bnz, rd of j (rules R82, R87). -/
def clearDontCare (w : Word) : Instr → Word
  | .jr _ => w &&& 0xF1FF
  | .bz _ _ => w &&& 0xF1FF
  | .bnz _ _ => w &&& 0xF1FF
  | .j _ => w &&& 0xFE3F
  | _ => w

end Sys2Proof
end

