-- ==== Sys2Proof/Certificates/Slice0/Obligations.lean ====
section
/-! DEFINITION. The statements about the model, for the provers. Their terms stand in Sys2Proof/Safety.lean. -/

open Sys2Proof Sys2Proof.Machine

/-- Under the default tables, ten words built field by field from the spec's formats, at least one of each format,
decode to their instructions. The function codes are the spec's defaults (D1 to D6, log entry 2). -/
def Obligations.SampleWordsDecode : Prop :=
  decodeWord defaultTables (0b0001#4 ++ 0b111#3 ++ 0b110#3 ++ 0b000#3 ++ 0b000#3) = .ok (.sub 6 7) ∧
  decodeWord defaultTables (0b1100#4 ++ 0b111#3 ++ 0b001#3 ++ 0b000#3 ++ 0b000#3) = .ok (.jalr 1 7) ∧
  decodeWord defaultTables (0b1111111#7 ++ 0b110#3 ++ 0b000#3 ++ 0b001#3) = .ok (.addi 6 0xFFFF) ∧
  decodeWord defaultTables (0b100#3 ++ 0b0100#4 ++ 0b110#3 ++ 0b011#3 ++ 0b001#3) = .ok (.srai 6 4) ∧
  decodeWord defaultTables (0b1110#4 ++ 0b111#3 ++ 0b110#3 ++ 0b000#3 ++ 0b010#3) = .ok (.beq 6 7 0xFFFC) ∧
  decodeWord defaultTables (0b1111#4 ++ 0b010#3 ++ 0b110#3 ++ 0b000#3 ++ 0b011#3) = .ok (.sb 6 2 0xFFFF) ∧
  decodeWord defaultTables (0b1000#4 ++ 0b010#3 ++ 0b110#3 ++ 0b001#3 ++ 0b100#3) = .ok (.lw 6 2 0xFFF8) ∧
  decodeWord defaultTables (0b1#1 ++ 0b100000#6 ++ 0b001#3 ++ 0b000#3 ++ 0b101#3) = .ok (.jal 1 0xFE00) ∧
  decodeWord defaultTables (0b0#1 ++ 0b111111#6 ++ 0b110#3 ++ 0b111#3 ++ 0b110#3) = .ok (.lui 6 0xFF80) ∧
  decodeWord defaultTables (0b0000000101#10 ++ 0b000#3 ++ 0b111#3) = .ok (.ecall 5)

/-- Under any tables, the format the decoder outputs is RegReg, Imm, Branch, Store, Load, Jump, Upper or System as
bits [2:0] are 0 to 7. -/
def Obligations.OpcodeSelectsFormat : Prop :=
  ∀ (t : Tables) (w : Word),
    (w.toNat % 8 = 0 → (decode t w).fmt = .regReg) ∧ (w.toNat % 8 = 1 → (decode t w).fmt = .imm) ∧
    (w.toNat % 8 = 2 → (decode t w).fmt = .branch) ∧ (w.toNat % 8 = 3 → (decode t w).fmt = .store) ∧
    (w.toNat % 8 = 4 → (decode t w).fmt = .load) ∧ (w.toNat % 8 = 5 → (decode t w).fmt = .jump) ∧
    (w.toNat % 8 = 6 → (decode t w).fmt = .upper) ∧ (w.toNat % 8 = 7 → (decode t w).fmt = .system)

/-- Under any tables and for every word, raw is the word and rd_rs1, rs2, funct3, funct4, shamt, link and svc are the
bits the decoder's table names. The port names are the spec's own decision D15. -/
def Obligations.DecoderOutputsFields : Prop :=
  ∀ (t : Tables) (w : Word),
    (decode t w).raw = w ∧ (decode t w).rdRs1.toNat = w.toNat / 64 % 8 ∧ (decode t w).rs2.toNat = w.toNat / 512 % 8 ∧
    (decode t w).funct3.toNat = w.toNat / 8 % 8 ∧ (decode t w).funct4.toNat = w.toNat / 4096 ∧
    (decode t w).shamt.toNat = w.toNat / 512 % 16 ∧ (decode t w).link.toNat = w.toNat / 32768 ∧
    (decode t w).svc.toNat = w.toNat / 64

/-- For every word: Branch sext_5(w[15:12] << 1), Store and Load sext_4(w[15:12]), Jump sext_10((w[14:9] << 4) |
(w[5:3] << 1)), Upper (w[14:9] << 10) | (w[5:3] << 7), under any tables; Imm sext_7(w[15:9]), or zext_7 for sltui, or
0 in the shift group, under the default tables; 0 for RegReg and System. The sign bit of the Jump immediate is the
spec's own reading (rule R68, N6, log entry 3) and the place of sltui the default table's (D2, log entry 2). That a
Store or Load word that spells no operation, and under other tables a Branch word too, still has its format's value is
the model's reading of rule R79 (log entry 9). -/
def Obligations.ImmediatesAssembled : Prop :=
  (∀ (t : Tables) (w : Word),
    (w.toNat % 8 = 0 → (decode t w).imm = 0) ∧ (w.toNat % 8 = 2 → (decode t w).imm = branchDisp w) ∧
    (w.toNat % 8 = 3 → (decode t w).imm = memOffset w) ∧ (w.toNat % 8 = 4 → (decode t w).imm = memOffset w) ∧
    (w.toNat % 8 = 5 → (decode t w).imm = jumpDisp w) ∧ (w.toNat % 8 = 6 → (decode t w).imm = upperValue w) ∧
    (w.toNat % 8 = 7 → (decode t w).imm = 0)) ∧
  ∀ w : Word, w.toNat % 8 = 1 →
    (decode defaultTables w).imm =
      if w.toNat / 8 % 8 = 3 then 0
      else if w.toNat / 8 % 8 = 2 then BitVec.ofNat 16 (imm7Nat w)
      else sextNat 7 (imm7Nat w)

/-- For each of the 41 rows (match, mask, operation) and every word w with w & mask = match, the decoder under the
default tables names the row's operation. The function codes are the spec's defaults (D1 to D6, log entry 2). -/
def Obligations.OpcodeTableSelects : Prop :=
  ∀ row ∈ opcodeRows, ∀ w : Word, w &&& row.2.1 = row.1 → (decode defaultTables w).op = row.2.2

/-- Under the default tables a word that matches none of the 41 rows is UNIMPL(BadFunct) in RegReg, Store and Load,
UNIMPL(BadShiftMode) in Imm, UNIMPL(SysReserved) in System, and every Branch, Jump and Upper word matches a row. It
rests on the default function codes (D1 to D6, log entry 2) and on D10. -/
def Obligations.OtherWordsUnimplemented : Prop :=
  ∀ w : Word, (∀ row ∈ opcodeRows, w &&& row.2.1 ≠ row.1) →
    ((w.toNat % 8 = 0 ∨ w.toNat % 8 = 3 ∨ w.toNat % 8 = 4) ∧ (decode defaultTables w).op = .unimpl .badFunct) ∨
    (w.toNat % 8 = 1 ∧ w.toNat / 8 % 8 = 3 ∧ (decode defaultTables w).op = .unimpl .badShiftMode) ∨
    (w.toNat % 8 = 7 ∧ w.toNat / 8 % 8 ≠ 0 ∧ (decode defaultTables w).op = .unimpl .sysReserved)

/-- Under any tables, a word that matches 0x0005, 0x8005, 0x0006 or 0x8006 under mask 0x8007 is j, jal, lui or auipc,
whatever its other bits; in j the rd field is output but is no operand; so no Jump or Upper word is unimplemented.
That any rd field of j is accepted and ignored is the spec's decision D21 (log entry 3). -/
def Obligations.LinkBitSelectsJumpAndUpper : Prop :=
  (∀ (t : Tables) (w : Word),
    (w &&& 0x8007 = 0x0005 → (decode t w).op = .j) ∧ (w &&& 0x8007 = 0x8005 → (decode t w).op = .jal) ∧
    (w &&& 0x8007 = 0x0006 → (decode t w).op = .lui) ∧ (w &&& 0x8007 = 0x8006 → (decode t w).op = .auipc)) ∧
  (∀ (t : Tables) (w : Word), w.toNat % 8 = 5 ∨ w.toNat % 8 = 6 → ∃ i, decodeWord t w = .ok i) ∧
  ∀ (t : Tables) (w : Word) (rd : RegIdx), w &&& 0x8007 = 0x0005 →
    (decode t w).rdRs1.toNat = w.toNat / 64 % 8 ∧ decodeWord t ((w &&& 0xFE3F) ||| (rd.zeroExtend 16 <<< 6)) = decodeWord t w

/-- For all function-code tables in which every operation has a code that selects it (and no Imm operation sits in the
shift group), and for every instruction whose immediate is in the range of rule R88, decode of encode is the
instruction. -/
def Obligations.DecodeEncodeRoundTrip : Prop :=
  ∀ t : Tables, tablesOk t = true → ∀ i : Instr, i.wf = true → decodeWord t (encode t i) = .ok i

/-- Under the default tables, for every word that spells an instruction, encode of it is the word with rs2 of jr, bz,
bnz and rd of j set to 0. The function codes are the spec's defaults (D1 to D6, log entry 2), that these fields are
ignored its decision D21 (log entry 3). -/
def Obligations.ReencodeKeepsWord : Prop :=
  ∀ (w : Word) (i : Instr), decodeWord defaultTables w = .ok i → encode defaultTables i = clearDontCare w i

/-- Under any tables, the instruction a word spells is well formed: its immediate lies in the range of rule R88 with
its step. -/
def Obligations.DecodedInstructionWellFormed : Prop :=
  ∀ (t : Tables) (w : Word) (i : Instr), decodeWord t w = .ok i → i.wf = true

/-- add rd, rs2 completes in every state: rd gets (x[rd] + x[rs2]) mod 65536 of the old values, rd = rs2 included;
every other register, memory, output and parameters are unchanged; pc moves by 2. The encoding clause is the default
table the spec marks as its own (decisions D1 to D6 of spec/92_eei_decisions.md, log entry 2). -/
def Obligations.AddResult : Prop :=
  Spells defaultTables 0x0000 0xF03F (fun w => .add (w.extractLsb' 6 3) (w.extractLsb' 9 3)) ∧
  ∀ (s : State) (rd rs2 : RegIdx),
    WritesReg (.add rd rs2) s rd fun v => v.toNat = ((s.reg rd).toNat + (s.reg rs2).toNat) % 65536

/-- sub rd, rs2 completes in every state with (x[rd] - x[rs2]) mod 65536 in rd and nothing else changed but pc by 2.
The operand order is the spec's decision D7 (log entry 3). The encoding clause is the default table the spec marks as
its own (decisions D1 to D6 of spec/92_eei_decisions.md, log entry 2). -/
def Obligations.SubResult : Prop :=
  Spells defaultTables 0x1000 0xF03F (fun w => .sub (w.extractLsb' 6 3) (w.extractLsb' 9 3)) ∧
  ∀ (s : State) (rd rs2 : RegIdx),
    WritesReg (.sub rd rs2) s rd fun v => (v.toNat : Int) = ((s.reg rd).toNat - (s.reg rs2).toNat : Int) % 65536

/-- slt compares the two's complement values and sltu the unsigned ones, strictly; rd gets 1 or 0; nothing else
changes but pc by 2. The operand order is the spec's decision D7 (log entry 3). The encoding clause is the default
table the spec marks as its own (decisions D1 to D6 of spec/92_eei_decisions.md, log entry 2). -/
def Obligations.SetLessRegResult : Prop :=
  Spells defaultTables 0x2008 0xF03F (fun w => .slt (w.extractLsb' 6 3) (w.extractLsb' 9 3)) ∧
  Spells defaultTables 0x3010 0xF03F (fun w => .sltu (w.extractLsb' 6 3) (w.extractLsb' 9 3)) ∧
  (∀ (s : State) (rd rs2 : RegIdx),
    WritesReg (.slt rd rs2) s rd fun v => v = if (s.reg rd).toInt < (s.reg rs2).toInt then 1 else 0) ∧
  ∀ (s : State) (rd rs2 : RegIdx),
    WritesReg (.sltu rd rs2) s rd fun v => v = if (s.reg rd).toNat < (s.reg rs2).toNat then 1 else 0

/-- With k = x[rs2] mod 16: sll writes x[rd] * 2^k mod 65536, srl the quotient of x[rd] by 2^k, sra the floor of the
signed value by 2^k; nothing else changes but pc by 2. The encoding clause is the default table the spec marks as its
own (decisions D1 to D6 of spec/92_eei_decisions.md, log entry 2). -/
def Obligations.ShiftRegResult : Prop :=
  Spells defaultTables 0x4018 0xF03F (fun w => .sll (w.extractLsb' 6 3) (w.extractLsb' 9 3)) ∧
  Spells defaultTables 0x5018 0xF03F (fun w => .srl (w.extractLsb' 6 3) (w.extractLsb' 9 3)) ∧
  Spells defaultTables 0x6018 0xF03F (fun w => .sra (w.extractLsb' 6 3) (w.extractLsb' 9 3)) ∧
  (∀ (s : State) (rd rs2 : RegIdx),
    WritesReg (.sll rd rs2) s rd fun v =>
      v.toNat = (s.reg rd).toNat * 2 ^ ((s.reg rs2).toNat % 16) % 65536) ∧
  (∀ (s : State) (rd rs2 : RegIdx),
    WritesReg (.srl rd rs2) s rd fun v => v.toNat = (s.reg rd).toNat / 2 ^ ((s.reg rs2).toNat % 16)) ∧
  ∀ (s : State) (rd rs2 : RegIdx),
    WritesReg (.sra rd rs2) s rd fun v => v.toInt = (s.reg rd).toInt / 2 ^ ((s.reg rs2).toNat % 16)

/-- Each bit of the result is the or, and or exclusive or of the two operands' bits; nothing else changes but pc by 2.
The encoding clause is the default table the spec marks as its own (decisions D1 to D6 of spec/92_eei_decisions.md,
log entry 2). -/
def Obligations.LogicRegResult : Prop :=
  Spells defaultTables 0x7020 0xF03F (fun w => .or (w.extractLsb' 6 3) (w.extractLsb' 9 3)) ∧
  Spells defaultTables 0x8028 0xF03F (fun w => .and (w.extractLsb' 6 3) (w.extractLsb' 9 3)) ∧
  Spells defaultTables 0x9030 0xF03F (fun w => .xor (w.extractLsb' 6 3) (w.extractLsb' 9 3)) ∧
  (∀ (s : State) (rd rs2 : RegIdx),
    WritesReg (.or rd rs2) s rd fun v =>
      ∀ k < 16, v.getLsbD k = ((s.reg rd).getLsbD k || (s.reg rs2).getLsbD k)) ∧
  (∀ (s : State) (rd rs2 : RegIdx),
    WritesReg (.and rd rs2) s rd fun v =>
      ∀ k < 16, v.getLsbD k = ((s.reg rd).getLsbD k && (s.reg rs2).getLsbD k)) ∧
  ∀ (s : State) (rd rs2 : RegIdx),
    WritesReg (.xor rd rs2) s rd fun v =>
      ∀ k < 16, v.getLsbD k = ((s.reg rd).getLsbD k != (s.reg rs2).getLsbD k)

/-- mv rd, rs2 completes in every state with the old x[rs2] in rd and nothing else changed but pc by 2. The encoding
clause is the default table the spec marks as its own (decisions D1 to D6 of spec/92_eei_decisions.md, log entry 2).
-/
def Obligations.MvResult : Prop :=
  Spells defaultTables 0xA038 0xF03F (fun w => .mv (w.extractLsb' 6 3) (w.extractLsb' 9 3)) ∧
  ∀ (s : State) (rd rs2 : RegIdx), WritesReg (.mv rd rs2) s rd fun v => v = s.reg rs2

/-- jr rd completes in every state: pc becomes x[rd], odd values included; registers, memory, output, parameters and
status are unchanged; the rs2 field is ignored (the spec's decision D21, log entry 3). The encoding clause is the
default table the spec marks as its own (decisions D1 to D6 of spec/92_eei_decisions.md, log entry 2). -/
def Obligations.JrResult : Prop :=
  Spells defaultTables 0xB000 0xF03F (fun w => .jr (w.extractLsb' 6 3)) ∧
  ∀ (s : State) (rd : RegIdx), ∃ t, exec (.jr rd) s = .next t ∧ t.pc = s.reg rd ∧ RegsSame s t ∧ MemSame s t ∧
    QuietSame s t ∧ t.status = s.status

/-- jalr rd, rs2 completes in every state: rd gets (pc + 2) mod 65536; under after_link pc becomes x[rs2] as read
after that write (so pc + 2 when rd = rs2), under before_link the old x[rs2]; nothing else changes. The encoding
clause is the default table the spec marks as its own (decisions D1 to D6 of spec/92_eei_decisions.md, log entry 2).
-/
def Obligations.JalrResult : Prop :=
  Spells defaultTables 0xC000 0xF03F (fun w => .jalr (w.extractLsb' 6 3) (w.extractLsb' 9 3)) ∧
  ∀ (s : State) (rd rs2 : RegIdx), ∃ t, exec (.jalr rd rs2) s = .next t ∧
    (t.reg rd).toNat = (s.pc.toNat + 2) % 65536 ∧ RegsButSame s t rd ∧
    (s.cfg.jalrAlias = .afterLink → t.pc = if rs2 = rd then t.reg rd else s.reg rs2) ∧
    (s.cfg.jalrAlias = .beforeLink → t.pc = s.reg rs2) ∧
    MemSame s t ∧ QuietSame s t ∧ t.status = s.status

/-- addi rd, imm completes in every state with (x[rd] + imm) mod 65536 in rd, imm the signed value; nothing else
changes but pc by 2. The encoding clause is the default table the spec marks as its own (decisions D1 to D6 of
spec/92_eei_decisions.md, log entry 2). -/
def Obligations.AddiResult : Prop :=
  Spells defaultTables 0x0001 0x003F (fun w => .addi (w.extractLsb' 6 3) (sextNat 7 (imm7Nat w))) ∧
  ∀ (s : State) (rd : RegIdx) (imm : Word),
    WritesReg (.addi rd imm) s rd fun v => (v.toNat : Int) = ((s.reg rd).toNat + imm.toInt) % 65536

/-- rd gets 1 or 0 by x[rd] < imm, signed for slti with sext_7, unsigned for sltui with zext_7; nothing else changes
but pc by 2. The encoding clause is the default table the spec marks as its own (decisions D1 to D6 of
spec/92_eei_decisions.md, log entry 2). -/
def Obligations.SetLessImmResult : Prop :=
  Spells defaultTables 0x0009 0x003F (fun w => .slti (w.extractLsb' 6 3) (sextNat 7 (imm7Nat w))) ∧
  Spells defaultTables 0x0011 0x003F (fun w => .sltui (w.extractLsb' 6 3) (BitVec.ofNat 16 (imm7Nat w))) ∧
  (∀ (s : State) (rd : RegIdx) (imm : Word),
    WritesReg (.slti rd imm) s rd fun v => v = if (s.reg rd).toInt < imm.toInt then 1 else 0) ∧
  ∀ (s : State) (rd : RegIdx) (imm : Word),
    WritesReg (.sltui rd imm) s rd fun v => v = if (s.reg rd).toNat < imm.toNat then 1 else 0

/-- slli writes x[rd] * 2^shamt mod 65536, srli the quotient by 2^shamt, srai the floor of the signed value by
2^shamt; nothing else changes but pc by 2. The encoding clause is the default table the spec marks as its own
(decisions D1 to D6 of spec/92_eei_decisions.md, log entry 2). -/
def Obligations.ShiftImmResult : Prop :=
  Spells defaultTables 0x2019 0xE03F (fun w => .slli (w.extractLsb' 6 3) (w.extractLsb' 9 4)) ∧
  Spells defaultTables 0x4019 0xE03F (fun w => .srli (w.extractLsb' 6 3) (w.extractLsb' 9 4)) ∧
  Spells defaultTables 0x8019 0xE03F (fun w => .srai (w.extractLsb' 6 3) (w.extractLsb' 9 4)) ∧
  (∀ (s : State) (rd : RegIdx) (n : BitVec 4),
    WritesReg (.slli rd n) s rd fun v => v.toNat = (s.reg rd).toNat * 2 ^ n.toNat % 65536) ∧
  (∀ (s : State) (rd : RegIdx) (n : BitVec 4),
    WritesReg (.srli rd n) s rd fun v => v.toNat = (s.reg rd).toNat / 2 ^ n.toNat) ∧
  ∀ (s : State) (rd : RegIdx) (n : BitVec 4),
    WritesReg (.srai rd n) s rd fun v => v.toInt = (s.reg rd).toInt / 2 ^ n.toNat

/-- Each bit of the result is the or, and or exclusive or of x[rd]'s bit and the extended immediate's; nothing else
changes but pc by 2. The encoding clause is the default table the spec marks as its own (decisions D1 to D6 of
spec/92_eei_decisions.md, log entry 2). -/
def Obligations.LogicImmResult : Prop :=
  Spells defaultTables 0x0021 0x003F (fun w => .ori (w.extractLsb' 6 3) (sextNat 7 (imm7Nat w))) ∧
  Spells defaultTables 0x0029 0x003F (fun w => .andi (w.extractLsb' 6 3) (sextNat 7 (imm7Nat w))) ∧
  Spells defaultTables 0x0031 0x003F (fun w => .xori (w.extractLsb' 6 3) (sextNat 7 (imm7Nat w))) ∧
  (∀ (s : State) (rd : RegIdx) (imm : Word),
    WritesReg (.ori rd imm) s rd fun v => ∀ k < 16, v.getLsbD k = ((s.reg rd).getLsbD k || imm.getLsbD k)) ∧
  (∀ (s : State) (rd : RegIdx) (imm : Word),
    WritesReg (.andi rd imm) s rd fun v => ∀ k < 16, v.getLsbD k = ((s.reg rd).getLsbD k && imm.getLsbD k)) ∧
  ∀ (s : State) (rd : RegIdx) (imm : Word),
    WritesReg (.xori rd imm) s rd fun v => ∀ k < 16, v.getLsbD k = ((s.reg rd).getLsbD k != imm.getLsbD k)

/-- Every word with opcode Imm and funct3 = 7 is li with the immediate sext_7(w[15:9]); li rd, imm completes in every
state with the immediate in rd, the old value not read; nothing else changes but pc by 2. -/
def Obligations.LiResult : Prop :=
  Spells defaultTables 0x0039 0x003F (fun w => .li (w.extractLsb' 6 3) (sextNat 7 (imm7Nat w))) ∧
  ∀ (s : State) (rd : RegIdx) (imm : Word), WritesReg (.li rd imm) s rd fun v => v = imm

/-- In every state the branch completes: pc moves by the displacement when the condition holds and by 2 when not;
registers, memory, output and parameters are unchanged. The encoding clause is the default table the spec marks as its
own (decisions D1 to D6 of spec/92_eei_decisions.md, log entry 2). -/
def Obligations.EqualBranchesResult : Prop :=
  Spells defaultTables 0x0002 0x003F (fun w => .beq (w.extractLsb' 6 3) (w.extractLsb' 9 3) (branchDisp w)) ∧
  Spells defaultTables 0x000A 0x003F (fun w => .bne (w.extractLsb' 6 3) (w.extractLsb' 9 3) (branchDisp w)) ∧
  (∀ (s : State) (rs1 rs2 : RegIdx) (imm : Word),
    BranchesOn (.beq rs1 rs2 imm) s ((s.reg rs1).toNat = (s.reg rs2).toNat) imm) ∧
  ∀ (s : State) (rs1 rs2 : RegIdx) (imm : Word),
    BranchesOn (.bne rs1 rs2 imm) s ((s.reg rs1).toNat ≠ (s.reg rs2).toNat) imm

/-- In every state the branch completes: pc moves by the displacement when the condition holds and by 2 when not;
nothing else changes; the rs2 field is ignored. The encoding clause is the default table the spec marks as its own
(decisions D1 to D6 of spec/92_eei_decisions.md, log entry 2). -/
def Obligations.ZeroBranchesResult : Prop :=
  Spells defaultTables 0x0012 0x003F (fun w => .bz (w.extractLsb' 6 3) (branchDisp w)) ∧
  Spells defaultTables 0x001A 0x003F (fun w => .bnz (w.extractLsb' 6 3) (branchDisp w)) ∧
  (∀ (s : State) (rs1 : RegIdx) (imm : Word),
    BranchesOn (.bz rs1 imm) s ((s.reg rs1).toNat = 0) imm) ∧
  ∀ (s : State) (rs1 : RegIdx) (imm : Word),
    BranchesOn (.bnz rs1 imm) s ((s.reg rs1).toNat ≠ 0) imm

/-- blt branches when sint(x[rs1]) < sint(x[rs2]), bge when not; pc moves by the displacement or by 2; nothing else
changes. The operand order is the spec's decision D7 (log entry 3). The encoding clause is the default table the spec
marks as its own (decisions D1 to D6 of spec/92_eei_decisions.md, log entry 2). -/
def Obligations.SignedBranchesResult : Prop :=
  Spells defaultTables 0x0022 0x003F (fun w => .blt (w.extractLsb' 6 3) (w.extractLsb' 9 3) (branchDisp w)) ∧
  Spells defaultTables 0x002A 0x003F (fun w => .bge (w.extractLsb' 6 3) (w.extractLsb' 9 3) (branchDisp w)) ∧
  (∀ (s : State) (rs1 rs2 : RegIdx) (imm : Word),
    BranchesOn (.blt rs1 rs2 imm) s ((s.reg rs1).toInt < (s.reg rs2).toInt) imm) ∧
  ∀ (s : State) (rs1 rs2 : RegIdx) (imm : Word),
    BranchesOn (.bge rs1 rs2 imm) s ((s.reg rs1).toInt ≥ (s.reg rs2).toInt) imm

/-- bltu branches when uint(x[rs1]) < uint(x[rs2]), bgeu when not; pc moves by the displacement or by 2; nothing else
changes. The operand order is the spec's decision D7 (log entry 3). The encoding clause is the default table the spec
marks as its own (decisions D1 to D6 of spec/92_eei_decisions.md, log entry 2). -/
def Obligations.UnsignedBranchesResult : Prop :=
  Spells defaultTables 0x0032 0x003F (fun w => .bltu (w.extractLsb' 6 3) (w.extractLsb' 9 3) (branchDisp w)) ∧
  Spells defaultTables 0x003A 0x003F (fun w => .bgeu (w.extractLsb' 6 3) (w.extractLsb' 9 3) (branchDisp w)) ∧
  (∀ (s : State) (rs1 rs2 : RegIdx) (imm : Word),
    BranchesOn (.bltu rs1 rs2 imm) s ((s.reg rs1).toNat < (s.reg rs2).toNat) imm) ∧
  ∀ (s : State) (rs1 rs2 : RegIdx) (imm : Word),
    BranchesOn (.bgeu rs1 rs2 imm) s ((s.reg rs1).toNat ≥ (s.reg rs2).toNat) imm

/-- With EA = uint(x[base]) + sint(imm): if 0 <= EA < 65536, sb completes with the low byte of x[src] at EA and every
other byte, every register, output and parameters unchanged, pc by 2; otherwise it faults with AddressingFault, pc and
word recorded, nothing else changed. The memory is in its canonical form (the invariant MemoryStaysCanonical). The
bounds check on the exact sum is the spec's decision D11 and the fault record its decision D20 (log entry 3). The
encoding clause is the default table the spec marks as its own (decisions D1 to D6 of spec/92_eei_decisions.md, log
entry 2). -/
def Obligations.SbResult : Prop :=
  Spells defaultTables 0x0003 0x003F (fun w => .sb (w.extractLsb' 6 3) (w.extractLsb' 9 3) (memOffset w)) ∧
  (∀ (s : State) (src base : RegIdx) (imm : Word), StateInv s → EaOk s base imm 1 →
    ∃ t, exec (.sb src base imm) s = .next t ∧
      (∀ a : Nat, (a : Int) = eaInt s base imm → (t.mem.read a).toNat = (s.reg src).toNat % 256) ∧
      (∀ a : Nat, (a : Int) ≠ eaInt s base imm → t.mem.read a = s.mem.read a) ∧
      RegsSame s t ∧ QuietSame s t ∧ PcMoved s t 2) ∧
  ∀ (s : State) (src base : RegIdx) (imm : Word), ¬EaOk s base imm 1 →
    ∃ t, exec (.sb src base imm) s = .next t ∧ FaultsWith s t .addressingFault

/-- With EA = uint(x[base]) + sint(imm): if 0 <= EA and EA + 1 < 65536, sw completes with the low byte of x[src] at EA
and the high byte at EA + 1, EA even or odd; every other byte, every register, output and parameters are unchanged, pc
by 2; otherwise AddressingFault with neither byte written. The memory is in its canonical form (MemoryStaysCanonical).
The bounds check on the exact sum is the spec's decision D11 and the fault record its decision D20 (log entry 3). The
encoding clause is the default table the spec marks as its own (decisions D1 to D6 of spec/92_eei_decisions.md, log
entry 2). -/
def Obligations.SwResult : Prop :=
  Spells defaultTables 0x000B 0x003F (fun w => .sw (w.extractLsb' 6 3) (w.extractLsb' 9 3) (memOffset w)) ∧
  (∀ (s : State) (src base : RegIdx) (imm : Word), StateInv s → EaOk s base imm 2 →
    ∃ t, exec (.sw src base imm) s = .next t ∧
      (∀ a : Nat, (a : Int) = eaInt s base imm → (t.mem.read a).toNat = (s.reg src).toNat % 256) ∧
      (∀ a : Nat, (a : Int) = eaInt s base imm + 1 → (t.mem.read a).toNat = (s.reg src).toNat / 256) ∧
      (∀ a : Nat, (a : Int) ≠ eaInt s base imm → (a : Int) ≠ eaInt s base imm + 1 → t.mem.read a = s.mem.read a) ∧
      RegsSame s t ∧ QuietSame s t ∧ PcMoved s t 2) ∧
  ∀ (s : State) (src base : RegIdx) (imm : Word), ¬EaOk s base imm 2 →
    ∃ t, exec (.sw src base imm) s = .next t ∧ FaultsWith s t .addressingFault

/-- With EA = uint(x[base]) + sint(imm): if 0 <= EA < 65536, lb leaves in rd the byte at EA as a signed value, lbu as
an unsigned one, rd = base included; nothing else changes but pc by 2; otherwise AddressingFault with no register
written. The bounds check on the exact sum is the spec's decision D11 and the fault record its decision D20 (log entry
3). The encoding clause is the default table the spec marks as its own (decisions D1 to D6 of
spec/92_eei_decisions.md, log entry 2). -/
def Obligations.LbLbuResult : Prop :=
  Spells defaultTables 0x0004 0x003F (fun w => .lb (w.extractLsb' 6 3) (w.extractLsb' 9 3) (memOffset w)) ∧
  Spells defaultTables 0x0024 0x003F (fun w => .lbu (w.extractLsb' 6 3) (w.extractLsb' 9 3) (memOffset w)) ∧
  (∀ (s : State) (rd base : RegIdx) (imm : Word), EaOk s base imm 1 → ∀ a : Nat, (a : Int) = eaInt s base imm →
    WritesReg (.lb rd base imm) s rd fun v => v.toInt = (s.mem.read a).toInt) ∧
  (∀ (s : State) (rd base : RegIdx) (imm : Word), EaOk s base imm 1 → ∀ a : Nat, (a : Int) = eaInt s base imm →
    WritesReg (.lbu rd base imm) s rd fun v => v.toNat = (s.mem.read a).toNat) ∧
  (∀ (s : State) (rd base : RegIdx) (imm : Word), ¬EaOk s base imm 1 →
    ∃ t, exec (.lb rd base imm) s = .next t ∧ FaultsWith s t .addressingFault) ∧
  (∀ (s : State) (rd base : RegIdx) (imm : Word), ¬EaOk s base imm 1 →
    ∃ t, exec (.lbu rd base imm) s = .next t ∧ FaultsWith s t .addressingFault)

/-- With EA = uint(x[base]) + sint(imm): if 0 <= EA and EA + 1 < 65536, lw leaves mem[EA] + 256 * mem[EA+1] in rd, rd
= base included; nothing else changes but pc by 2; otherwise AddressingFault with no register written. The bounds
check on the exact sum is the spec's decision D11 and the fault record its decision D20 (log entry 3). The encoding
clause is the default table the spec marks as its own (decisions D1 to D6 of spec/92_eei_decisions.md, log entry 2).
-/
def Obligations.LwResult : Prop :=
  Spells defaultTables 0x000C 0x003F (fun w => .lw (w.extractLsb' 6 3) (w.extractLsb' 9 3) (memOffset w)) ∧
  (∀ (s : State) (rd base : RegIdx) (imm : Word), EaOk s base imm 2 → ∀ a : Nat, (a : Int) = eaInt s base imm →
    WritesReg (.lw rd base imm) s rd fun v =>
      v.toNat = (s.mem.read a).toNat + 256 * (s.mem.read (a + 1)).toNat) ∧
  (∀ (s : State) (rd base : RegIdx) (imm : Word), ¬EaOk s base imm 2 →
    ∃ t, exec (.lw rd base imm) s = .next t ∧ FaultsWith s t .addressingFault)

/-- Under any tables every word matching 0x0005 under mask 0x8007 is j with displacement sext_10((w[14:9] << 4) |
(w[5:3] << 1)), the rd field ignored; j completes in every state: pc moves by the displacement; registers, memory,
output and parameters are unchanged. The sign bit of the displacement is the spec's own reading (rule R68, N6, log
entry 3). That any rd field is accepted and ignored is the spec's decision D21 (log entry 3). -/
def Obligations.JResult : Prop :=
  (∀ t : Tables, Spells t 0x0005 0x8007 (fun w => .j (jumpDisp w))) ∧
  ∀ (s : State) (imm : Word), ∃ t, exec (.j imm) s = .next t ∧ PcMoved s t imm.toInt ∧ RegsSame s t ∧ MemSame s t ∧
    QuietSame s t

/-- Under any tables every word matching 0x8005 under mask 0x8007 is jal with its rd field and displacement; jal
completes in every state: rd gets (pc + 2) mod 65536, pc moves by the displacement from the old pc; nothing else
changes. The sign bit of the displacement is the spec's own reading (rule R68, N6, log entry 3). -/
def Obligations.JalResult : Prop :=
  (∀ t : Tables, Spells t 0x8005 0x8007 (fun w => .jal (w.extractLsb' 6 3) (jumpDisp w))) ∧
  ∀ (s : State) (rd : RegIdx) (imm : Word), ∃ t, exec (.jal rd imm) s = .next t ∧
    (t.reg rd).toNat = (s.pc.toNat + 2) % 65536 ∧ RegsButSame s t rd ∧ PcMoved s t imm.toInt ∧ MemSame s t ∧
    QuietSame s t

/-- Under any tables every word matching 0x0006 under mask 0x8007 is lui with imm = (w[14:9] << 10) | (w[5:3] << 7), a
multiple of 128; lui completes in every state with imm in rd, the old value not read; nothing else changes but pc by
2. -/
def Obligations.LuiResult : Prop :=
  (∀ t : Tables, Spells t 0x0006 0x8007 (fun w => .lui (w.extractLsb' 6 3) (upperValue w))) ∧
  (∀ w : Word, (upperValue w).toNat % 128 = 0) ∧
  ∀ (s : State) (rd : RegIdx) (imm : Word), WritesReg (.lui rd imm) s rd fun v => v = imm

/-- Under any tables every word matching 0x8006 under mask 0x8007 is auipc with its rd field and imm = (w[14:9] << 10)
| (w[5:3] << 7); auipc completes in every state with (pc + imm) mod 65536 in rd; nothing else changes but pc by 2. -/
def Obligations.AuipcResult : Prop :=
  (∀ t : Tables, Spells t 0x8006 0x8007 (fun w => .auipc (w.extractLsb' 6 3) (upperValue w))) ∧
  ∀ (s : State) (rd : RegIdx) (imm : Word),
    WritesReg (.auipc rd imm) s rd fun v => v.toNat = (s.pc.toNat + imm.toNat) % 65536

/-- Under any tables: every word matching 0x0007 under mask 0x003F is ecall with w[15:6]; every System word with
w[5:3] not 0 is UNIMPL(SysReserved), whatever its svc field. The second half is the spec's decision D10 (log entry 3).
-/
def Obligations.EcallSelectsEveryService : Prop :=
  (∀ t : Tables, Spells t 0x0007 0x003F (fun w => .ecall (w.extractLsb' 6 10))) ∧
  ∀ (t : Tables) (w : Word), w.toNat % 8 = 7 → w.toNat / 8 % 8 ≠ 0 → decodeWord t w = .error .sysReserved

/-- ecall 1 completes in every state: the event PrintInt(x[6]) is appended to the output, and the value shown for it
is its two's complement value; pc moves by 2; registers, memory and parameters are unchanged. -/
def Obligations.EcallPrintsInteger : Prop :=
  (∀ s : State, ∃ t, exec (.ecall 1) s = .next t ∧ t.out = s.out ++ [.printInt (s.reg 6)] ∧ PcMoved s t 2 ∧
    RegsSame s t ∧ MemSame s t ∧ t.cfg = s.cfg) ∧
  ∀ v : Word, printedInt v = if v.toNat < 32768 then (v.toNat : Int) else v.toNat - 65536

/-- If the first zero byte at or after a0 is at address a0 + n below 65536, ecall 5 completes: PrintStr of the n bytes
before it is appended, pc moves by 2, nothing else changes. If no byte from a0 to 65535 is zero it faults with
UnterminatedString, the scan not wrapping; emitting nothing then is the spec's decision D17 and the fault record its
decision D20 (log entry 3). -/
def Obligations.EcallPrintsString : Prop :=
  (∀ (s : State) (n : Nat), (s.reg 6).toNat + n < 65536 → (s.mem.read ((s.reg 6).toNat + n)).toNat = 0 →
    (∀ k < n, (s.mem.read ((s.reg 6).toNat + k)).toNat ≠ 0) →
    ∃ t bs, exec (.ecall 5) s = .next t ∧ t.out = s.out ++ [.printStr bs] ∧ bs.length = n ∧
      (∀ k < n, bs[k]? = some (s.mem.read ((s.reg 6).toNat + k))) ∧
      PcMoved s t 2 ∧ RegsSame s t ∧ MemSame s t ∧ t.cfg = s.cfg) ∧
  ∀ s : State, (∀ a, (s.reg 6).toNat ≤ a → a < 65536 → (s.mem.read a).toNat ≠ 0) →
    ∃ t, exec (.ecall 5) s = .next t ∧ FaultsWith s t .unterminatedString

/-- With HALT_SVC = 3, the default, ecall 3 sets the status to HALTED(Ecall) and changes nothing else, pc included;
with HALT_SVC = 0x3FF, ecall 0x3FF does; the state then has no step. That the default is 3 is the spec's decision D8,
and that State.reset holds the default is the model's choice (log entry 1). -/
def Obligations.EcallHalts : Prop :=
  State.reset.cfg.haltSvc = .svc3 ∧
  (∀ s : State, s.cfg.haltSvc = .svc3 → exec (.ecall 3) s = .next { s with status := .halted .ecall }) ∧
  (∀ s : State, s.cfg.haltSvc = .svc3FF → exec (.ecall 0x3FF) s = .next { s with status := .halted .ecall }) ∧
  ∀ s : State, step { s with status := .halted .ecall } = .fault .alreadyHalted

/-- For svc other than 1, 5 and HALT_SVC (3 or 0x3FF, the other being undefined too): the event Unimplemented(pc, w)
is appended, w the word at the pc; under the policy fault the status becomes FAULTED(UnimplementedOperation, pc, w)
with pc kept, under continue pc moves by 2; registers, memory and parameters are unchanged. The policy is the spec's
decision D9 (log entry 1) and the fault record its decision D20 (log entry 3); that PC_OVERFLOW applies to this
advance too is log entry 7. -/
def Obligations.UndefinedServiceByPolicy : Prop :=
  ∀ (s : State) (svc : BitVec 10), svc ≠ 1 → svc ≠ 5 → (s.cfg.haltSvc = .svc3 → svc ≠ 3) →
    (s.cfg.haltSvc = .svc3FF → svc ≠ 0x3FF) →
    ∃ t w, exec (.ecall svc) s = .next t ∧ FetchedWord s w ∧ t.out = s.out ++ [.unimplemented s.pc w] ∧
      RegsSame s t ∧ MemSame s t ∧ t.cfg = s.cfg ∧
      (s.cfg.unimplPolicy = .fault → t.pc = s.pc ∧ t.status = .faulted .unimplementedOperation s.pc (some w)) ∧
      (s.cfg.unimplPolicy = .continues → PcMoved s t 2)

/-- In a running state whose fetch passes the exhaustion and odd-pc checks, with w = mem[pc] + 256 * mem[pc+1]: if w
decodes to i under the state's tables, the step is exec i in the state with Trace(pc, w, decode w) appended to the
output and nothing else changed. The content of the trace record is the spec's decision D18 (log entry 3), the fetch
from an odd pc under ODD_FETCH = unaligned its decision D12 (log entry 1). -/
def Obligations.StepRunsDecodedInstruction : Prop :=
  ∀ (s : State) (w : Word) (i : Instr), Fetches s → FetchedWord s w → decodeWord s.cfg.tables w = .ok i →
    step s = exec i (traced s w)

/-- In a running state with pc + 1 >= 65536, under either ODD_FETCH, the step sets the status to HALTED(Exhausted);
nothing is fetched or emitted. The exact condition is the spec's decision D22 (log entry 3). -/
def Obligations.ExhaustionHaltsBeforeFetch : Prop :=
  ∀ s : State, s.status = .running → s.pc.toNat + 1 ≥ 65536 →
    step s = .next { s with status := .halted .exhausted }

/-- In a running state with an odd pc other than 0xFFFF and ODD_FETCH = fault, the step sets FAULTED(MisalignedFetch,
pc) with no word recorded, emits nothing and changes nothing else; ODD_FETCH is the spec's decision D12 (log entry 1)
and the fault record its decision D20 (log entry 3), and its other value, unaligned, is covered by
StepRunsDecodedInstruction. -/
def Obligations.OddFetchFaultsByPolicy : Prop :=
  ∀ s : State, s.status = .running → s.pc.toNat % 2 = 1 → s.pc.toNat < 65535 → s.cfg.oddFetch = .fault →
    step s = .next { s with status := .faulted .misalignedFetch s.pc none }

/-- When the fetched word decodes to UNIMPL under the state's tables: Trace then Unimplemented(pc, w) are appended;
under the policy fault the status becomes FAULTED(UnimplementedOperation, pc, w) with pc kept, under continue pc moves
by 2; registers, memory and parameters are unchanged. The policy is the spec's decision D9 (log entry 1), the trace
record of an UNIMPL word D18 and the fault record D20 (log entry 3); that PC_OVERFLOW applies to this advance too is
log entry 7. -/
def Obligations.UnimplementedWordByPolicy : Prop :=
  ∀ (s : State) (w : Word) (r : UnimplReason), Fetches s → FetchedWord s w → decodeWord s.cfg.tables w = .error r →
    ∃ t, step s = .next t ∧
      t.out = s.out ++ [.trace s.pc w (decode s.cfg.tables w), .unimplemented s.pc w] ∧
      RegsSame s t ∧ MemSame s t ∧ t.cfg = s.cfg ∧
      (s.cfg.unimplPolicy = .fault → t.pc = s.pc ∧ t.status = .faulted .unimplementedOperation s.pc (some w)) ∧
      (s.cfg.unimplPolicy = .continues → PcMoved s t 2)

/-- A running state's step always answers a next state, never a fault or a refusal of the model; a HALTED or FAULTED
state has no step. That FAULTED is terminal is the spec's decision D20 (log entry 3). -/
def Obligations.StepOnlyWhenRunning : Prop :=
  ∀ s : State, (s.status = .running ↔ ∃ t, step s = .next t) ∧
    (endedNormally s.status = true → step s = .fault .alreadyHalted) ∧
    (endedAbnormally s.status = true → step s = .fault .alreadyFaulted)

/-- In a canonical memory, a byte write at an address below 65536 is seen at that address and at no other; a word
write puts the low byte at a and the high byte at a + 1; a word read is mem[a] + 256 * mem[a+1]. -/
def Obligations.MemoryReadsAfterWrites : Prop :=
  (∀ (m : Memory) (a b : Nat) (v : Word), m.wf = true → a < 65536 →
    ((m.write a (loByte v)).read b).toNat = if b = a then v.toNat % 256 else (m.read b).toNat) ∧
  (∀ (m : Memory) (a b : Nat) (v : Word), m.wf = true → a + 1 < 65536 →
    ((m.writeWord a v).read b).toNat =
      if b = a then v.toNat % 256 else if b = a + 1 then v.toNat / 256 else (m.read b).toNat) ∧
  ∀ (m : Memory) (a : Nat), (m.readWord a).toNat = (m.read a).toNat + 256 * (m.read (a + 1)).toNat

/-- From every state whose memory is canonical (addresses strictly rising and below 65536, no cell equal to what an
unlisted address reads as), a step that answers a next state leaves a canonical memory. -/
def Obligations.MemoryStaysCanonical : Prop :=
  ∀ s t : State, StateInv s → step s = .next t → StateInv t

/-- State.reset meets the invariant, and so does every state a run is launched in, whatever the image. That reset
lists no byte is the model's choice (log entry 4). -/
def Obligations.ResetMemoryCanonical : Prop :=
  StateInv State.reset ∧ ∀ (c : Config) (image : List Byte) (s : State), launch c image = some s → StateInv s

/-- For every image of at most 65536 bytes and every choice of the parameters there is a launch state: x0..x7 = 0, pc
= 0, RUNNING, no output, and memory as loaded: byte k of the image at address k. State.reset has the same registers,
pc, status and output. There is one mode and no interrupt mask, so nothing else is initialised. -/
def Obligations.LaunchState : Prop :=
  (∀ (c : Config) (image : List Byte), image.length ≤ 65536 → ∃ s, launch c image = some s ∧
    (∀ r, s.reg r = 0) ∧ s.pc = 0 ∧ s.status = .running ∧ s.out = [] ∧ s.cfg = c ∧
    ∀ k < image.length, image[k]? = some (s.mem.read k)) ∧
  (∀ r, State.reset.reg r = 0) ∧ State.reset.pc = 0 ∧ State.reset.status = .running ∧ State.reset.out = []

/-- For every step from s to t there is a list es of events with t.out = s.out ++ es, such that from the same state
with any other output o the step reaches the same t with o ++ es; and the parameters of t are those of s. -/
def Obligations.OutputOnlyAppendedNeverRead : Prop :=
  ∀ s t : State, step s = .next t → t.cfg = s.cfg ∧
    ∃ es, t.out = s.out ++ es ∧ ∀ o : List Event, step { s with out := o } = .next { t with out := o ++ es }

/-- In a running state whose fetch passes the checks, with w the word at pc, the step's output is the old output, then
Trace(pc, w, decode w), then at most one more event, which is no trace record. The content of the record, UNIMPL words
included, is the spec's decision D18 (log entry 3). -/
def Obligations.TraceOncePerFetchedWord : Prop :=
  ∀ (s t : State) (w : Word), Fetches s → FetchedWord s w → step s = .next t →
    ∃ es, t.out = s.out ++ .trace s.pc w (decode s.cfg.tables w) :: es ∧ es.length ≤ 1 ∧ traceCount es = 0

/-- If a step ends in FAULTED(c, a, w), then a is the pc the step began at, and registers, pc, every byte of memory
and the parameters are unchanged. That no partial write commits is the spec's decision D20 (log entry 3). -/
def Obligations.FaultsCommitNothing : Prop :=
  ∀ (s t : State) (c : FaultCause) (a : Word) (w : Option Word), step s = .next t → t.status = .faulted c a w →
    a = s.pc ∧ t.pc = s.pc ∧ RegsSame s t ∧ MemSame s t ∧ t.cfg = s.cfg

/-- A step that ends in AddressingFault fetched a load or a store whose effective address EA = uint(x[base]) +
sint(imm) of n bytes has EA < 0 or EA + n - 1 >= 65536; in UnterminatedString, ecall 5 with no zero byte in
mem[a0..65535]; in UnimplementedOperation, an UNIMPL word or an ecall with a service other than 1, 5 and HALT_SVC,
under the policy fault; in MisalignedFetch, nothing: pc was odd and ODD_FETCH is fault. The word at pc is recorded,
none for MisalignedFetch (decision D20, log entry 3); the bounds check on the exact sum is decision D11 and the
missing terminator's fault D17 (log entry 3). -/
def Obligations.FaultCausesHaveSources : Prop :=
  ∀ (s t : State) (c : FaultCause) (a : Word) (w : Option Word), step s = .next t → t.status = .faulted c a w →
    match c with
    | .addressingFault =>
      ∃ u i base imm n, FetchedWord s u ∧ w = some u ∧ decodeWord s.cfg.tables u = .ok i ∧
        memAccess i = some (base, imm, n) ∧ ¬EaOk s base imm n
    | .unimplementedOperation =>
      ∃ u, FetchedWord s u ∧ w = some u ∧ s.cfg.unimplPolicy = .fault ∧
        ((∃ r, decodeWord s.cfg.tables u = .error r) ∨
          ∃ svc, decodeWord s.cfg.tables u = .ok (.ecall svc) ∧ svc ≠ 1 ∧ svc ≠ 5 ∧
            svc ≠ haltSvcNumber s.cfg.haltSvc)
    | .unterminatedString =>
      (∃ u, FetchedWord s u ∧ w = some u ∧ decodeWord s.cfg.tables u = .ok (.ecall 5)) ∧
        ∀ a, (s.reg 6).toNat ≤ a → a < 65536 → (s.mem.read a).toNat ≠ 0
    | .misalignedFetch => w = none ∧ s.pc.toNat % 2 = 1 ∧ s.cfg.oddFetch = .fault

/-- If some byte reads differently after a step, the word fetched decodes to sb or sw; so no load, fetch or service
writes memory. -/
def Obligations.OnlyStoresWriteMemory : Prop :=
  ∀ (s t : State) (a : Nat), step s = .next t → t.mem.read a ≠ s.mem.read a →
    ∃ u i, FetchedWord s u ∧ decodeWord s.cfg.tables u = .ok i ∧ isStore i = true

/-- For every instruction and state, exec answers a next state in which every register other than the instruction's
destination (rd_rs1 or rd; none for branches, stores, j, jr, ecall) reads as before. -/
def Obligations.OnlyDestinationRegisterChanges : Prop :=
  ∀ (i : Instr) (s : State), ∃ t, exec i s = .next t ∧ ∀ r, destReg i ≠ some r → t.reg r = s.reg r

/-- If a step from an even pc leaves an odd one, the word fetched decodes to jr or jalr, whatever the tables and
parameters. -/
def Obligations.OnlyRegisterJumpsMakePcOdd : Prop :=
  ∀ s t : State, s.pc.toNat % 2 = 0 → step s = .next t → t.pc.toNat % 2 = 1 →
    ∃ u i, FetchedWord s u ∧ decodeWord s.cfg.tables u = .ok i ∧ isRegJump i = true

/-- If sw src, imm(base) has the effective address pc + 2, with pc + 3 < 65536, it completes with pc + 2 as the next
pc, and the word at that pc is the old x[src]. The memory is in its canonical form (MemoryStaysCanonical). -/
def Obligations.StoreSeenByNextFetch : Prop :=
  ∀ (s : State) (src base : RegIdx) (imm : Word), StateInv s → s.pc.toNat + 3 < 65536 →
    eaInt s base imm = s.pc.toNat + 2 →
    ∃ t, exec (.sw src base imm) s = .next t ∧ t.pc.toNat = s.pc.toNat + 2 ∧ t.status = s.status ∧
      FetchedWord t (s.reg src)

/-- If n + 1 steps from s reach a state, every state after the first n or fewer of them is RUNNING; a stopped state
stays the last. -/
def Obligations.RunEndsWhenStopped : Prop :=
  ∀ (n k : Nat) (s t u : State), Host.Core.run core n s = .next t → k < n → Host.Core.run core k s = .next u →
    u.status = .running
end

