-- ==== Sys2Proof/Laws/Decode.lean ====
section
/-! SUPPORT. The decoder's small laws: formats and opcodes, table lookups, and the decoded record's instruction. -/

namespace Sys2Proof

@[simp] theorem formatOf_formatOpcode (f : Format) : formatOf (formatOpcode f) = f := by
  cases f <;> rfl

@[simp] theorem formatOpcode_formatOf (o : BitVec 3) : formatOpcode (formatOf o) = o := by
  revert o; decide

theorem allRegOps_complete (o : RegOp) : o ∈ allRegOps := by cases o <;> decide

theorem allImmOps_complete (o : ImmOp) : o ∈ allImmOps := by cases o <;> decide

theorem allShiftOps_complete (o : ShiftOp) : o ∈ allShiftOps := by cases o <;> decide

theorem allBranchOps_complete (o : BranchOp) : o ∈ allBranchOps := by cases o <;> decide

/-- In a table that covers its operations, an operation's code selects it. -/
theorem CodeTable.op_code {κ ω : Type} [DecidableEq κ] [DecidableEq ω] (t : CodeTable κ ω) (dflt : κ) (all : List ω)
    (h : tableCovers t dflt all = true) (o : ω) (ho : o ∈ all) : t.op (t.code dflt o) = some o := by
  have := List.all_eq_true.1 h o ho
  simpa using this

/-- The parts of well-formed tables. -/
theorem tablesOk_parts (t : Tables) (h : tablesOk t = true) :
    tableCovers t.rFunct (0, 0) allRegOps = true ∧ tableCovers t.iFunct3 0 allImmOps = true ∧
      (∀ o, immCode t o ≠ 3) ∧ tableCovers t.shiftMode 0 allShiftOps = true ∧
      tableCovers t.bFunct3 0 allBranchOps = true ∧ tableCovers t.sFunct3 0 [.sb, .sw] = true ∧
      tableCovers t.lFunct3 0 [.lb, .lw, .lbu] = true := by
  simp only [tablesOk, Bool.and_eq_true] at h
  obtain ⟨⟨⟨⟨⟨⟨h1, h2⟩, h3⟩, h4⟩, h5⟩, h6⟩, h7⟩ := h
  refine ⟨h1, h2, fun o => ?_, h4, h5, h6, h7⟩
  simpa using List.all_eq_true.1 h3 o (allImmOps_complete o)

/-- The default tables are well formed. -/
theorem defaultTables_ok : tablesOk defaultTables = true := by decide

@[simp] theorem decode_op (t : Tables) (w : Word) : (decode t w).op = decodeOp t w := rfl
@[simp] theorem decode_imm (t : Tables) (w : Word) : (decode t w).imm = decodeImm t w := rfl
@[simp] theorem decode_rdRs1 (t : Tables) (w : Word) : (decode t w).rdRs1 = rdField w := rfl
@[simp] theorem decode_rs2 (t : Tables) (w : Word) : (decode t w).rs2 = rs2Field w := rfl
@[simp] theorem decode_shamt (t : Tables) (w : Word) : (decode t w).shamt = shamtField w := rfl
@[simp] theorem decode_svc (t : Tables) (w : Word) : (decode t w).svc = svcField w := rfl
@[simp] theorem decode_raw (t : Tables) (w : Word) : (decode t w).raw = w := rfl

/-- A word spells no instruction for a reason exactly when its op is UNIMPL with that reason (rule R80). -/
theorem decodeWord_error (t : Tables) (w : Word) (r : UnimplReason) :
    decodeWord t w = .error r ↔ decodeOp t w = .unimpl r := by
  unfold decodeWord recordInstr
  rw [decode_op]
  cases decodeOp t w <;> simp

end Sys2Proof
end

