-- ==== Sys2Proof/Laws/Fields.lean ====
section
/-! SUPPORT. Bridges between the model's bit-vector operations and the plain numbers the statements speak of: fields as
quotients and remainders, fields of a word that matches a pattern, immediates, bytes, strings. -/

namespace Sys2Proof

/-! ## Fields -/

/-- A field is a quotient and a remainder of the word. -/
theorem extract_toNat (w : Word) (lo n : Nat) : (w.extractLsb' lo n).toNat = w.toNat / 2 ^ lo % 2 ^ n := by
  rw [BitVec.extractLsb'_toNat, Nat.shiftRight_eq_div_pow]

/-- Where the mask covers a field whole, a word that matches the pattern has the pattern's field. -/
theorem extract_of_match (w mask pattern : Word) (lo n : Nat) (h : w &&& mask = pattern)
    (hm : mask.extractLsb' lo n = BitVec.allOnes n) : w.extractLsb' lo n = pattern.extractLsb' lo n := by
  rw [← h, BitVec.extractLsb'_and, hm, BitVec.and_allOnes]

/-! ## Immediates -/

theorem signExtend7_eq (v : BitVec 7) : v.signExtend 16 = sextNat 7 v.toNat := by
  revert v; decide

theorem signExtend4_eq (v : BitVec 4) : v.signExtend 16 = sextNat 4 v.toNat := by
  revert v; decide

theorem signExtend5_eq (v : BitVec 4) : (v ++ 0#1 : BitVec 5).signExtend 16 = sextNat 5 (v.toNat <<< 1) := by
  revert v; decide

theorem signExtend10_eq (hi : BitVec 6) (lo : BitVec 3) : (hi ++ lo ++ 0#1 : BitVec 10).signExtend 16 =
    sextNat 10 (hi.toNat <<< 4 ||| lo.toNat <<< 1) := by
  revert hi lo; decide

theorem upper_eq (hi : BitVec 6) (lo : BitVec 3) :
    (hi ++ lo ++ 0#7 : Word) = BitVec.ofNat 16 (hi.toNat <<< 10 ||| lo.toNat <<< 7) := by
  revert hi lo; decide

theorem imm7Field_toNat (w : Word) : (imm7Field w).toNat = imm7Nat w := by
  unfold imm7Field imm7Nat
  rw [extract_toNat]
  exact Nat.mod_eq_of_lt (by have := w.isLt; omega)

theorem funct4Field_toNat (w : Word) : (funct4Field w).toNat = w.toNat / 4096 := by
  unfold funct4Field
  rw [extract_toNat]
  exact Nat.mod_eq_of_lt (by have := w.isLt; omega)

/-- The Imm immediate (rule R64). -/
theorem immSigned_eq (w : Word) : immSigned w = sextNat 7 (imm7Nat w) := by
  rw [immSigned, signExtend7_eq, imm7Field_toNat]

/-- The Branch displacement (rule R66). -/
theorem branchImm_eq (w : Word) : branchImm w = branchDisp w := by
  rw [branchImm, signExtend5_eq, funct4Field_toNat, branchDisp]

/-- The Store and Load offset (rule R67). -/
theorem offsetImm_eq (w : Word) : offsetImm w = memOffset w := by
  rw [offsetImm, signExtend4_eq, funct4Field_toNat, memOffset]

/-- The Jump displacement (rule R68). -/
theorem jumpImm_eq (w : Word) : jumpImm w = jumpDisp w := by
  rw [jumpImm, signExtend10_eq, immHiField, funct3Field, extract_toNat, extract_toNat]
  rfl

/-- The Upper value (rule R69). -/
theorem upperImm_eq (w : Word) : upperImm w = upperValue w := by
  rw [upperImm, upper_eq, immHiField, funct3Field, extract_toNat, extract_toNat]
  rfl

/-! ## Bytes -/

theorem ofBytes_toNat (lo hi : Byte) : (ofBytes lo hi).toNat = lo.toNat + 256 * hi.toNat := by
  unfold ofBytes
  rw [BitVec.toNat_append, Nat.shiftLeft_eq, Nat.mul_comm, ← Nat.two_pow_add_eq_or_of_lt lo.isLt]
  omega

theorem loByte_toNat (w : Word) : (loByte w).toNat = w.toNat % 256 := by
  unfold loByte
  rw [extract_toNat]
  simp

theorem hiByte_toNat (w : Word) : (hiByte w).toNat = w.toNat / 256 := by
  unfold hiByte
  rw [extract_toNat]
  exact Nat.mod_eq_of_lt (by have := w.isLt; omega)

/-! ## The fetched word and strings (rules R104, R192) -/

namespace Machine

/-- The word at the pc is the word the step fetches and a fault records. -/
theorem fetchedWord_iff (s : State) (w : Word) : FetchedWord s w ↔ w = s.instrWord := by
  have h : s.instrWord.toNat = (s.mem.read s.pc.toNat).toNat + 256 * (s.mem.read (s.pc.toNat + 1)).toNat :=
    ofBytes_toNat _ _
  unfold FetchedWord
  rw [← h]
  exact BitVec.toNat_inj

/-- A string is found exactly where its bytes are non-zero and the byte after them is zero, within the bytes looked at. -/
theorem scanString_some (m : Memory) (n a : Nat) (bs : List Byte) (h : scanString m n a = some bs) :
    bs.length < n ∧ m.read (a + bs.length) = 0 ∧
      ∀ k < bs.length, bs[k]? = some (m.read (a + k)) ∧ m.read (a + k) ≠ 0 := by
  induction n generalizing a bs with
  | zero => cases h
  | succ n ih =>
    unfold scanString at h
    split at h
    · next h0 =>
      cases h
      exact ⟨Nat.succ_pos _, h0, fun k hk => absurd hk (Nat.not_lt_zero k)⟩
    · next h0 =>
      cases hs : scanString m n (a + 1) with
      | none => rw [hs] at h; cases h
      | some cs =>
        rw [hs] at h
        cases h
        obtain ⟨h1, h2, h3⟩ := ih (a + 1) cs hs
        refine ⟨by simpa using h1, by simpa [Nat.add_assoc, Nat.add_comm 1] using h2, fun k hk => ?_⟩
        cases k with
        | zero => exact ⟨rfl, h0⟩
        | succ k =>
          have := h3 k (by simpa using hk)
          simpa [Nat.add_assoc, Nat.add_comm 1] using this

/-- No string is found exactly where no byte looked at is zero. -/
theorem scanString_none (m : Memory) (n a : Nat) (h : scanString m n a = none) : ∀ k < n, m.read (a + k) ≠ 0 := by
  induction n generalizing a with
  | zero => exact fun k hk => absurd hk (Nat.not_lt_zero k)
  | succ n ih =>
    unfold scanString at h
    split at h
    · cases h
    · next h0 =>
      intro k hk
      cases k with
      | zero => exact h0
      | succ k =>
        have := ih (a + 1) (by simpa using h) k (by omega)
        simpa [Nat.add_assoc, Nat.add_comm 1] using this

end Machine

end Sys2Proof
end

