-- ==== Sys2Proof/Laws/Memory.lean ====
section
/-! SUPPORT. The laws of the byte memory: what a read gives after a write, every operation keeps the canonical form, and
canonical memories that read alike are equal. -/

namespace Sys2Proof.Machine

@[simp] theorem Memory.read_nil (a : Nat) : Memory.read [] a = unlistedByte := rfl

theorem Memory.read_cell (b a : Nat) (v : Byte) (rest : Memory) :
    Memory.read ((b, v) :: rest) a = if b = a then v else Memory.read rest a := rfl

/-- The canonical form from `lo` on, of a nonempty list. -/
theorem Memory.canonFrom_cell (lo a : Nat) (v : Byte) (rest : Memory) :
    Memory.canonFrom lo ((a, v) :: rest) = true ↔
      lo ≤ a ∧ a < 65536 ∧ v ≠ unlistedByte ∧ Memory.canonFrom (a + 1) rest = true := by
  simp [Memory.canonFrom, and_assoc]

theorem Memory.canonFrom_mono (m : Memory) (lo lo' : Nat) (hle : lo' ≤ lo) (h : Memory.canonFrom lo m = true) :
    Memory.canonFrom lo' m = true := by
  cases m with
  | nil => rfl
  | cons c rest =>
    obtain ⟨a, v⟩ := c
    rw [Memory.canonFrom_cell] at h ⊢
    exact ⟨by omega, h.2⟩

/-- Nothing is listed below the bound of the canonical form. -/
theorem Memory.read_below (m : Memory) (lo a : Nat) (h : Memory.canonFrom lo m = true) (ha : a < lo) :
    m.read a = unlistedByte := by
  induction m generalizing lo with
  | nil => rfl
  | cons c rest ih =>
    obtain ⟨b, v⟩ := c
    rw [Memory.canonFrom_cell] at h
    rw [Memory.read_cell, if_neg (by omega)]
    exact ih (b + 1) h.2.2.2 (by omega)

/-- Nothing is listed above the end of memory. -/
theorem Memory.read_beyond (m : Memory) (a : Nat) (h : m.wf = true) (ha : 65536 ≤ a) : m.read a = unlistedByte := by
  have go : ∀ (m : Memory) (lo : Nat), Memory.canonFrom lo m = true → m.read a = unlistedByte := by
    intro m
    induction m with
    | nil => intros; rfl
    | cons c rest ih =>
      obtain ⟨b, v⟩ := c
      intro lo hc
      rw [Memory.canonFrom_cell] at hc
      rw [Memory.read_cell, if_neg (by omega)]
      exact ih (b + 1) hc.2.2.2
  exact go m 0 h

theorem Memory.read_cons (a b : Nat) (v : Byte) (rest : Memory) (h : Memory.canonFrom (a + 1) rest = true) :
    (Memory.cons a v rest).read b = if b = a then v else rest.read b := by
  unfold Memory.cons
  split
  · next hv =>
    split
    · next hb => rw [hb, hv]; exact Memory.read_below rest (a + 1) a h (by omega)
    · rfl
  · rw [Memory.read_cell]
    by_cases hb : b = a
    · simp [hb]
    · rw [if_neg (fun e => hb e.symm), if_neg hb]

theorem Memory.canonFrom_cons (lo a : Nat) (v : Byte) (rest : Memory) (hlo : lo ≤ a) (ha : a < 65536)
    (h : Memory.canonFrom (a + 1) rest = true) : Memory.canonFrom lo (Memory.cons a v rest) = true := by
  unfold Memory.cons
  split
  · exact Memory.canonFrom_mono rest (a + 1) lo (by omega) h
  · next hv => exact (Memory.canonFrom_cell lo a v rest).2 ⟨hlo, ha, hv, h⟩

/-- Every write below the end of memory keeps the canonical form from a bound at or below it. -/
theorem Memory.canonFrom_write (m : Memory) (lo a : Nat) (v : Byte) (h : Memory.canonFrom lo m = true) (hlo : lo ≤ a)
    (ha : a < 65536) : Memory.canonFrom lo (m.write a v) = true := by
  induction m generalizing lo with
  | nil => exact Memory.canonFrom_cons lo a v [] hlo ha rfl
  | cons c rest ih =>
    obtain ⟨b, u⟩ := c
    have hc := (Memory.canonFrom_cell lo b u rest).1 h
    unfold Memory.write
    split
    · exact Memory.canonFrom_cons lo a v _ hlo ha
        ((Memory.canonFrom_cell (a + 1) b u rest).2 ⟨by omega, hc.2⟩)
    · split
      · next hab =>
        subst hab
        exact Memory.canonFrom_cons lo a v rest hlo ha hc.2.2.2
      · exact (Memory.canonFrom_cell lo b u _).2
          ⟨hc.1, hc.2.1, hc.2.2.1, ih (b + 1) hc.2.2.2 (by omega)⟩

/-- A read after a write: the value written at its address, the old byte elsewhere. -/
theorem Memory.read_write_from (m : Memory) (lo a b : Nat) (v : Byte) (h : Memory.canonFrom lo m = true) :
    (m.write a v).read b = if b = a then v else m.read b := by
  induction m generalizing lo with
  | nil => exact Memory.read_cons a b v [] rfl
  | cons c rest ih =>
    obtain ⟨d, u⟩ := c
    have hc := (Memory.canonFrom_cell lo d u rest).1 h
    unfold Memory.write
    split
    · exact Memory.read_cons a b v _ ((Memory.canonFrom_cell (a + 1) d u rest).2 ⟨by omega, hc.2⟩)
    · split
      · next had =>
        subst had
        rw [Memory.read_cons a b v rest hc.2.2.2, Memory.read_cell]
        by_cases hb : b = a
        · simp [hb]
        · rw [if_neg hb, if_neg hb, if_neg (fun e => hb e.symm)]
      · next hlt hne =>
        rw [Memory.read_cell, Memory.read_cell, ih (d + 1) hc.2.2.2]
        by_cases hd : d = b
        · rw [if_pos hd, if_pos hd, if_neg (by omega)]
        · rw [if_neg hd, if_neg hd]

/-- A read after a write, in a canonical memory (rule R51). -/
theorem Memory.read_write (m : Memory) (a b : Nat) (v : Byte) (h : m.wf = true) :
    (m.write a v).read b = if b = a then v else m.read b :=
  Memory.read_write_from m 0 a b v h

/-- A byte write keeps the canonical form. -/
theorem Memory.wf_write (m : Memory) (a : Nat) (v : Byte) (h : m.wf = true) (ha : a < 65536) :
    (m.write a v).wf = true :=
  Memory.canonFrom_write m 0 a v h (Nat.zero_le a) ha

/-- A word write keeps the canonical form. -/
theorem Memory.wf_writeWord (m : Memory) (a : Nat) (v : Word) (h : m.wf = true) (ha : a + 1 < 65536) :
    (m.writeWord a v).wf = true :=
  Memory.wf_write _ (a + 1) _ (Memory.wf_write m a _ h (by omega)) ha

/-- A read after a word write. -/
theorem Memory.read_writeWord (m : Memory) (a b : Nat) (v : Word) (h : m.wf = true) (ha : a < 65536) :
    (m.writeWord a v).read b = if b = a + 1 then hiByte v else if b = a then loByte v else m.read b := by
  unfold Memory.writeWord
  rw [Memory.read_write _ _ _ _ (Memory.wf_write m a _ h ha), Memory.read_write _ _ _ _ h]

/-- Loading bytes keeps the canonical form. -/
theorem Memory.wf_load (vs : List Byte) : ∀ (m : Memory) (a : Nat), m.wf = true → a + vs.length ≤ 65536 →
    (m.load a vs).wf = true := by
  induction vs with
  | nil => intro m a h _; simpa [Memory.load] using h
  | cons v vs ih =>
    intro m a h hl
    simp only [List.length_cons] at hl
    exact ih (m.write a v) (a + 1) (Memory.wf_write m a v h (by omega)) (by omega)

/-- Canonical memories that read alike are equal. -/
theorem Memory.canon_ext (m m' : Memory) (lo : Nat) (h : Memory.canonFrom lo m = true)
    (h' : Memory.canonFrom lo m' = true) (he : ∀ a, m.read a = m'.read a) : m = m' := by
  induction m generalizing lo m' with
  | nil =>
    cases m' with
    | nil => rfl
    | cons c rest =>
      obtain ⟨a, v⟩ := c
      have := he a
      simp only [Memory.read_nil, Memory.read_cell, if_true] at this
      exact absurd this.symm ((Memory.canonFrom_cell lo a v rest).1 h').2.2.1
  | cons c rest ih =>
    obtain ⟨a, v⟩ := c
    have hc := (Memory.canonFrom_cell lo a v rest).1 h
    cases m' with
    | nil =>
      have := he a
      simp only [Memory.read_nil, Memory.read_cell, if_true] at this
      exact absurd this hc.2.2.1
    | cons c' rest' =>
      obtain ⟨b, u⟩ := c'
      have hc' := (Memory.canonFrom_cell lo b u rest').1 h'
      have hab : a = b := by
        rcases Nat.lt_trichotomy a b with hlt | heq | hlt
        · have hr := he a
          rw [Memory.read_cell, if_pos rfl, Memory.read_below _ b a
            ((Memory.canonFrom_cell b b u rest').2 ⟨Nat.le_refl b, hc'.2⟩) hlt] at hr
          exact absurd hr hc.2.2.1
        · exact heq
        · have hr := he b
          rw [Memory.read_below _ a b ((Memory.canonFrom_cell a a v rest).2 ⟨Nat.le_refl a, hc.2⟩) hlt,
            Memory.read_cell, if_pos rfl] at hr
          exact absurd hr.symm hc'.2.2.1
      subst hab
      have hv := he a
      simp only [Memory.read_cell, if_true] at hv
      subst hv
      have hrest : rest = rest' := by
        refine ih rest' (a + 1) hc.2.2.2 hc'.2.2.2 fun b => ?_
        by_cases hb : a = b
        · rw [Memory.read_below rest (a + 1) b hc.2.2.2 (by omega),
            Memory.read_below rest' (a + 1) b hc'.2.2.2 (by omega)]
        · have := he b
          rwa [Memory.read_cell, Memory.read_cell, if_neg hb, if_neg hb] at this
      rw [hrest]

end Sys2Proof.Machine
end

