-- ==== Sys2Proof/Laws/State.lean ====
section
/-! SUPPORT. One lemma per field per update of State, and reading a register after writing one. -/

namespace Sys2Proof.Machine

@[simp] theorem State.setReg_regs (s : State) (r : RegIdx) (v : Word) : (s.setReg r v).regs = s.regs.set r.toNat v r.isLt := rfl
@[simp] theorem State.setReg_pc (s : State) (r : RegIdx) (v : Word) : (s.setReg r v).pc = s.pc := rfl
@[simp] theorem State.setReg_mem (s : State) (r : RegIdx) (v : Word) : (s.setReg r v).mem = s.mem := rfl
@[simp] theorem State.setReg_status (s : State) (r : RegIdx) (v : Word) : (s.setReg r v).status = s.status := rfl
@[simp] theorem State.setReg_out (s : State) (r : RegIdx) (v : Word) : (s.setReg r v).out = s.out := rfl
@[simp] theorem State.setReg_cfg (s : State) (r : RegIdx) (v : Word) : (s.setReg r v).cfg = s.cfg := rfl

@[simp] theorem State.setPc_regs (s : State) (p : Word) : (s.setPc p).regs = s.regs := rfl
@[simp] theorem State.setPc_pc (s : State) (p : Word) : (s.setPc p).pc = p := rfl
@[simp] theorem State.setPc_mem (s : State) (p : Word) : (s.setPc p).mem = s.mem := rfl
@[simp] theorem State.setPc_status (s : State) (p : Word) : (s.setPc p).status = s.status := rfl
@[simp] theorem State.setPc_out (s : State) (p : Word) : (s.setPc p).out = s.out := rfl
@[simp] theorem State.setPc_cfg (s : State) (p : Word) : (s.setPc p).cfg = s.cfg := rfl

@[simp] theorem State.setMem_regs (s : State) (m : Memory) : (s.setMem m).regs = s.regs := rfl
@[simp] theorem State.setMem_pc (s : State) (m : Memory) : (s.setMem m).pc = s.pc := rfl
@[simp] theorem State.setMem_mem (s : State) (m : Memory) : (s.setMem m).mem = m := rfl
@[simp] theorem State.setMem_status (s : State) (m : Memory) : (s.setMem m).status = s.status := rfl
@[simp] theorem State.setMem_out (s : State) (m : Memory) : (s.setMem m).out = s.out := rfl
@[simp] theorem State.setMem_cfg (s : State) (m : Memory) : (s.setMem m).cfg = s.cfg := rfl

@[simp] theorem State.emit_regs (s : State) (e : Event) : (s.emit e).regs = s.regs := rfl
@[simp] theorem State.emit_pc (s : State) (e : Event) : (s.emit e).pc = s.pc := rfl
@[simp] theorem State.emit_mem (s : State) (e : Event) : (s.emit e).mem = s.mem := rfl
@[simp] theorem State.emit_status (s : State) (e : Event) : (s.emit e).status = s.status := rfl
@[simp] theorem State.emit_out (s : State) (e : Event) : (s.emit e).out = s.out ++ [e] := rfl
@[simp] theorem State.emit_cfg (s : State) (e : Event) : (s.emit e).cfg = s.cfg := rfl

@[simp] theorem State.halt_regs (s : State) (c : HaltCause) : (s.halt c).regs = s.regs := rfl
@[simp] theorem State.halt_pc (s : State) (c : HaltCause) : (s.halt c).pc = s.pc := rfl
@[simp] theorem State.halt_mem (s : State) (c : HaltCause) : (s.halt c).mem = s.mem := rfl
@[simp] theorem State.halt_status (s : State) (c : HaltCause) : (s.halt c).status = .halted c := rfl
@[simp] theorem State.halt_out (s : State) (c : HaltCause) : (s.halt c).out = s.out := rfl
@[simp] theorem State.halt_cfg (s : State) (c : HaltCause) : (s.halt c).cfg = s.cfg := rfl

@[simp] theorem State.raiseFault_regs (s : State) (c : FaultCause) : (s.raiseFault c).regs = s.regs := rfl
@[simp] theorem State.raiseFault_pc (s : State) (c : FaultCause) : (s.raiseFault c).pc = s.pc := rfl
@[simp] theorem State.raiseFault_mem (s : State) (c : FaultCause) : (s.raiseFault c).mem = s.mem := rfl
@[simp] theorem State.raiseFault_status (s : State) (c : FaultCause) : (s.raiseFault c).status = .faulted c s.pc (faultWord s c) := rfl
@[simp] theorem State.raiseFault_out (s : State) (c : FaultCause) : (s.raiseFault c).out = s.out := rfl
@[simp] theorem State.raiseFault_cfg (s : State) (c : FaultCause) : (s.raiseFault c).cfg = s.cfg := rfl

/-- Rule R22: a write of v to any register, x0 among them, makes the next read of it return v. -/
@[simp] theorem State.reg_setReg_self (s : State) (r : RegIdx) (v : Word) : (s.setReg r v).reg r = v := by
  simp [State.reg]

theorem State.reg_setReg_other (s : State) (r q : RegIdx) (v : Word) (h : q ≠ r) :
    (s.setReg r v).reg q = s.reg q := by
  have hn : r.toNat ≠ q.toNat := fun e => h (BitVec.eq_of_toNat_eq e.symm)
  simp [State.reg, Vector.getElem_set_ne _ _ hn]

/-- Reading a register after writing one, both cases. -/
theorem State.reg_setReg (s : State) (r q : RegIdx) (v : Word) :
    (s.setReg r v).reg q = if q = r then v else s.reg q := by
  split
  · next h => subst h; simp
  · next h => exact State.reg_setReg_other s r q v h

@[simp] theorem State.setPc_reg (s : State) (p : Word) (q : RegIdx) : (s.setPc p).reg q = s.reg q := rfl
@[simp] theorem State.setMem_reg (s : State) (m : Memory) (q : RegIdx) : (s.setMem m).reg q = s.reg q := rfl
@[simp] theorem State.emit_reg (s : State) (e : Event) (q : RegIdx) : (s.emit e).reg q = s.reg q := rfl
@[simp] theorem State.halt_reg (s : State) (c : HaltCause) (q : RegIdx) : (s.halt c).reg q = s.reg q := rfl
@[simp] theorem State.raiseFault_reg (s : State) (c : FaultCause) (q : RegIdx) : (s.raiseFault c).reg q = s.reg q := rfl

/-- Two states that read alike in every register have equal register files. -/
theorem State.regs_ext (s t : State) (h : ∀ r, t.reg r = s.reg r) : t.regs = s.regs := by
  apply Vector.ext
  intro k hk
  have hr := h (BitVec.ofNat 3 k)
  simpa [State.reg, Nat.mod_eq_of_lt hk] using hr

end Sys2Proof.Machine
end

