-- ==== Sys2Proof/Laws/Ops.lean ====
section
/-! SUPPORT. What each shared operation can do, said once: the next pc, the unimplemented operation, the bounds check, the
common forms of the families, the front of a step, and the step itself. -/

namespace Sys2Proof.Machine

/-- The exact next pc lies outside 0..65535 and the parameter says to halt (rule R108). -/
def overflows (s : State) (off : Int) : Prop :=
  s.cfg.pcOverflow = .exhaust ∧ ¬(0 ≤ s.exactPc off ∧ s.exactPc off < 65536)

/-- `movePc` halts with Exhausted or moves the pc, and does nothing else. -/
theorem State.movePc_cases (s : State) (off : Int) :
    (overflows s off ∧ s.movePc off = s.halt .exhausted) ∨
      (¬overflows s off ∧ s.movePc off = s.setPc (s.pc + BitVec.ofInt 16 off)) := by
  unfold State.movePc overflows
  split
  · next h => exact .inl ⟨h, rfl⟩
  · next h => exact .inr ⟨h, rfl⟩

@[simp] theorem State.movePc_regs (s : State) (off : Int) : (s.movePc off).regs = s.regs := by
  rcases s.movePc_cases off with ⟨-, h⟩ | ⟨-, h⟩ <;> rw [h] <;> rfl

@[simp] theorem State.movePc_mem (s : State) (off : Int) : (s.movePc off).mem = s.mem := by
  rcases s.movePc_cases off with ⟨-, h⟩ | ⟨-, h⟩ <;> rw [h] <;> rfl

@[simp] theorem State.movePc_out (s : State) (off : Int) : (s.movePc off).out = s.out := by
  rcases s.movePc_cases off with ⟨-, h⟩ | ⟨-, h⟩ <;> rw [h] <;> rfl

@[simp] theorem State.movePc_cfg (s : State) (off : Int) : (s.movePc off).cfg = s.cfg := by
  rcases s.movePc_cases off with ⟨-, h⟩ | ⟨-, h⟩ <;> rw [h] <;> rfl

@[simp] theorem State.movePc_reg (s : State) (off : Int) (r : RegIdx) : (s.movePc off).reg r = s.reg r := by
  simp [State.reg]

@[simp] theorem State.advance_eq (s : State) : s.advance = s.movePc 2 := rfl

@[simp] theorem State.emit_instrWord (s : State) (e : Event) : (s.emit e).instrWord = s.instrWord := rfl

/-- `unimplemented()` reports, then faults or goes on, by the policy (rule R203). -/
theorem State.unimplemented_cases (s : State) :
    (s.cfg.unimplPolicy = .fault ∧ s.unimplemented =
        (s.emit (.unimplemented s.pc s.instrWord)).raiseFault .unimplementedOperation) ∨
      (s.cfg.unimplPolicy = .continues ∧ s.unimplemented = (s.emit (.unimplemented s.pc s.instrWord)).advance) := by
  unfold State.unimplemented
  cases h : s.cfg.unimplPolicy
  · exact .inl ⟨rfl, rfl⟩
  · exact .inr ⟨rfl, rfl⟩

/-- The bounds check (rule R44). -/
theorem boundsCheck_cases (ea : Int) (n : Nat) :
    (0 ≤ ea ∧ ea + n - 1 < 65536 ∧ boundsCheck ea n = some ea.toNat) ∨
      (¬(0 ≤ ea ∧ ea + n - 1 < 65536) ∧ boundsCheck ea n = none) := by
  unfold boundsCheck
  split
  · next h => exact .inl ⟨h.1, h.2, rfl⟩
  · next h => exact .inr ⟨h, rfl⟩

/-- An admitted access lies inside memory. -/
theorem accessAddress_lt (s : State) (base : RegIdx) (imm : Word) (n a : Nat)
    (h : accessAddress s base imm n = some a) (hn : 1 ≤ n) : a + n - 1 < 65536 := by
  unfold accessAddress at h
  rcases boundsCheck_cases (effectiveAddress s base imm) n with ⟨h0, h1, he⟩ | ⟨-, he⟩
  · rw [he] at h; cases h; omega
  · rw [he] at h; cases h

/-- A store completes at the admitted address or takes the AddressingFault. -/
theorem storeOp_cases (n : Nat) (put : Memory → Nat → Memory) (base : RegIdx) (imm : Word) (s : State) :
    (∃ a, accessAddress s base imm n = some a ∧
        storeOp n put base imm s = .next (s.setMem (put s.mem a)).advance) ∨
      (accessAddress s base imm n = none ∧ storeOp n put base imm s = .next (s.raiseFault .addressingFault)) := by
  unfold storeOp
  cases accessAddress s base imm n with
  | some a => exact .inl ⟨a, rfl, rfl⟩
  | none => exact .inr ⟨rfl, rfl⟩

/-- A load completes with the value at the admitted address or takes the AddressingFault. -/
theorem loadOp_cases (n : Nat) (get : Memory → Nat → Word) (rd base : RegIdx) (imm : Word) (s : State) :
    (∃ a, accessAddress s base imm n = some a ∧
        loadOp n get rd base imm s = .next (s.setReg rd (get s.mem a)).advance) ∨
      (accessAddress s base imm n = none ∧ loadOp n get rd base imm s = .next (s.raiseFault .addressingFault)) := by
  unfold loadOp
  cases accessAddress s base imm n with
  | some a => exact .inl ⟨a, rfl, rfl⟩
  | none => exact .inr ⟨rfl, rfl⟩

/-- Service 5 prints the string at a0 or takes the UnterminatedString fault (rule R192). -/
theorem printStrService_cases (s : State) :
    (∃ bs, stringAt s.mem (s.reg a0).toNat = some bs ∧ printStrService s = (s.emit (.printStr bs)).advance) ∨
      (stringAt s.mem (s.reg a0).toNat = none ∧ printStrService s = s.raiseFault .unterminatedString) := by
  unfold printStrService
  cases stringAt s.mem (s.reg a0).toNat with
  | some bs => exact .inl ⟨bs, rfl, rfl⟩
  | none => exact .inr ⟨rfl, rfl⟩

/-- ecall runs the halt service, a print service or the unimplemented operation (rule R190). -/
theorem execEcall_cases (svc : BitVec 10) (s : State) :
    (svc = haltSvcNumber s.cfg.haltSvc ∧ execEcall svc s = .next (haltService s)) ∨
      (svc = 1 ∧ execEcall svc s = .next (printIntService s)) ∨
      (svc = 5 ∧ execEcall svc s = .next (printStrService s)) ∨
      (svc ≠ haltSvcNumber s.cfg.haltSvc ∧ svc ≠ 1 ∧ svc ≠ 5 ∧ execEcall svc s = .next s.unimplemented) := by
  unfold execEcall
  split
  · next h => exact .inl ⟨h, rfl⟩
  · next h =>
    split
    · next h1 => exact .inr (.inl ⟨h1, rfl⟩)
    · next h1 =>
      split
      · next h5 => exact .inr (.inr (.inl ⟨h5, rfl⟩))
      · next h5 => exact .inr (.inr (.inr ⟨h, h1, h5, rfl⟩))

/-- The front of a running step, in the order of rule R205. -/
theorem fetchRunning_cases (s : State) :
    (exhausted s.pc = true ∧ fetchRunning s = .ended (s.halt .exhausted)) ∨
      (exhausted s.pc = false ∧ oddPc s.pc = true ∧ s.cfg.oddFetch = .fault ∧
        fetchRunning s = .ended (s.raiseFault .misalignedFetch)) ∨
      (exhausted s.pc = false ∧ ¬(oddPc s.pc = true ∧ s.cfg.oddFetch = .fault) ∧ fetchRunning s = fetchDecode s) := by
  unfold fetchRunning
  split
  · next h => exact .inl ⟨h, rfl⟩
  · next h =>
    have he : exhausted s.pc = false := by simpa using h
    split
    · next ho => exact .inr (.inl ⟨he, ho.1, ho.2, rfl⟩)
    · next ho => exact .inr (.inr ⟨he, ho, rfl⟩)

/-- Fetch and decode give the instruction, or run the unimplemented operation (rules R105, R109). -/
theorem fetchDecode_cases (s : State) :
    (∃ i, decodeWord s.cfg.tables s.instrWord = .ok i ∧
        fetchDecode s = .instr i (s.emit (.trace s.pc s.instrWord (decode s.cfg.tables s.instrWord)))) ∨
      (∃ r, decodeWord s.cfg.tables s.instrWord = .error r ∧ fetchDecode s =
        .ended (s.emit (.trace s.pc s.instrWord (decode s.cfg.tables s.instrWord))).unimplemented) := by
  unfold fetchDecode decodeWord
  cases h : recordInstr (decode s.cfg.tables s.instrWord) with
  | ok i => exact .inl ⟨i, rfl, by simp [h]⟩
  | error r => exact .inr ⟨r, rfl, by simp [h]⟩

/-- A state that takes a step is RUNNING. -/
theorem running_of_step (s t : State) (h : step s = .next t) : s.status = .running := by
  unfold step fetchStage at h
  cases hs : s.status with
  | running => rfl
  | halted c => rw [hs] at h; cases h
  | faulted c a w => rw [hs] at h; cases h

/-- Everything a step can do (rule R109): it halts for exhaustion, faults for an odd pc, runs the unimplemented operation,
or executes the decoded instruction. -/
theorem step_cases (s t : State) (h : step s = .next t) :
    (exhausted s.pc = true ∧ t = s.halt .exhausted) ∨
      (exhausted s.pc = false ∧ oddPc s.pc = true ∧ s.cfg.oddFetch = .fault ∧ t = s.raiseFault .misalignedFetch) ∨
      (exhausted s.pc = false ∧ ¬(oddPc s.pc = true ∧ s.cfg.oddFetch = .fault) ∧
        ((∃ i, decodeWord s.cfg.tables s.instrWord = .ok i ∧
            exec i (s.emit (.trace s.pc s.instrWord (decode s.cfg.tables s.instrWord))) = .next t) ∨
          (∃ r, decodeWord s.cfg.tables s.instrWord = .error r ∧
            t = (s.emit (.trace s.pc s.instrWord (decode s.cfg.tables s.instrWord))).unimplemented))) := by
  have hr := running_of_step s t h
  unfold step fetchStage at h
  simp only [hr] at h
  rcases fetchRunning_cases s with ⟨he, hf⟩ | ⟨he, ho, hp, hf⟩ | ⟨he, ho, hf⟩
  · rw [hf] at h; cases h; exact .inl ⟨he, rfl⟩
  · rw [hf] at h; cases h; exact .inr (.inl ⟨he, ho, hp, rfl⟩)
  · rw [hf] at h
    rcases fetchDecode_cases s with ⟨i, hd, hg⟩ | ⟨r, hd, hg⟩
    · rw [hg] at h; exact .inr (.inr ⟨he, ho, .inl ⟨i, hd, h⟩⟩)
    · rw [hg] at h; cases h; exact .inr (.inr ⟨he, ho, .inr ⟨r, hd, rfl⟩⟩)

end Sys2Proof.Machine
end

