-- ==== Sys2Proof/Laws/PerInstr.lean ====
section
/-! SUPPORT. Per instruction: the low three bits of its word are its format's opcode, under any function-code tables
(spec/30_encoding.md rule R61). -/

namespace Sys2Proof.Laws.OpcodeField

open Sys2Proof

/-- The format of an instruction (spec/30_encoding.md section 3). -/
def instrFormat : Instr → Format
  | .add _ _ => .regReg
  | .sub _ _ => .regReg
  | .slt _ _ => .regReg
  | .sltu _ _ => .regReg
  | .sll _ _ => .regReg
  | .srl _ _ => .regReg
  | .sra _ _ => .regReg
  | .or _ _ => .regReg
  | .and _ _ => .regReg
  | .xor _ _ => .regReg
  | .mv _ _ => .regReg
  | .jr _ => .regReg
  | .jalr _ _ => .regReg
  | .addi _ _ => .imm
  | .slti _ _ => .imm
  | .sltui _ _ => .imm
  | .ori _ _ => .imm
  | .andi _ _ => .imm
  | .xori _ _ => .imm
  | .li _ _ => .imm
  | .slli _ _ => .imm
  | .srli _ _ => .imm
  | .srai _ _ => .imm
  | .beq _ _ _ => .branch
  | .bne _ _ _ => .branch
  | .bz _ _ => .branch
  | .bnz _ _ => .branch
  | .blt _ _ _ => .branch
  | .bge _ _ _ => .branch
  | .bltu _ _ _ => .branch
  | .bgeu _ _ _ => .branch
  | .sb _ _ _ => .store
  | .sw _ _ _ => .store
  | .lb _ _ _ => .load
  | .lw _ _ _ => .load
  | .lbu _ _ _ => .load
  | .j _ => .jump
  | .jal _ _ => .jump
  | .lui _ _ => .upper
  | .auipc _ _ => .upper
  | .ecall _ => .system

/-- The instruction's word carries its format's opcode in bits [2:0]. -/
def Statement (i : Instr) : Prop := ∀ t : Tables, opcodeField (encode t i) = formatOpcode (instrFormat i)

/-- The low three bits of a word built with the opcode last. -/
theorem opcodeField_append (x : BitVec 13) (o : BitVec 3) : opcodeField (x ++ o) = o := by
  have low : (x ++ o).extractLsb' 0 3 = o := by
    apply BitVec.eq_of_getLsbD_eq
    intro k hk
    rw [BitVec.getLsbD_extractLsb', BitVec.getLsbD_append]
    simp [hk]
  exact low

theorem add (rd rs2 : RegIdx) : Statement (.add rd rs2) := fun _ => opcodeField_append _ _
theorem sub (rd rs2 : RegIdx) : Statement (.sub rd rs2) := fun _ => opcodeField_append _ _
theorem slt (rd rs2 : RegIdx) : Statement (.slt rd rs2) := fun _ => opcodeField_append _ _
theorem sltu (rd rs2 : RegIdx) : Statement (.sltu rd rs2) := fun _ => opcodeField_append _ _
theorem sll (rd rs2 : RegIdx) : Statement (.sll rd rs2) := fun _ => opcodeField_append _ _
theorem srl (rd rs2 : RegIdx) : Statement (.srl rd rs2) := fun _ => opcodeField_append _ _
theorem sra (rd rs2 : RegIdx) : Statement (.sra rd rs2) := fun _ => opcodeField_append _ _
theorem or (rd rs2 : RegIdx) : Statement (.or rd rs2) := fun _ => opcodeField_append _ _
theorem and (rd rs2 : RegIdx) : Statement (.and rd rs2) := fun _ => opcodeField_append _ _
theorem xor (rd rs2 : RegIdx) : Statement (.xor rd rs2) := fun _ => opcodeField_append _ _
theorem mv (rd rs2 : RegIdx) : Statement (.mv rd rs2) := fun _ => opcodeField_append _ _
theorem jr (rd : RegIdx) : Statement (.jr rd) := fun _ => opcodeField_append _ _
theorem jalr (rd rs2 : RegIdx) : Statement (.jalr rd rs2) := fun _ => opcodeField_append _ _
theorem addi (rd : RegIdx) (imm : Word) : Statement (.addi rd imm) := fun _ => opcodeField_append _ _
theorem slti (rd : RegIdx) (imm : Word) : Statement (.slti rd imm) := fun _ => opcodeField_append _ _
theorem sltui (rd : RegIdx) (imm : Word) : Statement (.sltui rd imm) := fun _ => opcodeField_append _ _
theorem ori (rd : RegIdx) (imm : Word) : Statement (.ori rd imm) := fun _ => opcodeField_append _ _
theorem andi (rd : RegIdx) (imm : Word) : Statement (.andi rd imm) := fun _ => opcodeField_append _ _
theorem xori (rd : RegIdx) (imm : Word) : Statement (.xori rd imm) := fun _ => opcodeField_append _ _
theorem li (rd : RegIdx) (imm : Word) : Statement (.li rd imm) := fun _ => opcodeField_append _ _
theorem slli (rd : RegIdx) (shamt : BitVec 4) : Statement (.slli rd shamt) := fun _ => opcodeField_append _ _
theorem srli (rd : RegIdx) (shamt : BitVec 4) : Statement (.srli rd shamt) := fun _ => opcodeField_append _ _
theorem srai (rd : RegIdx) (shamt : BitVec 4) : Statement (.srai rd shamt) := fun _ => opcodeField_append _ _
theorem beq (rs1 rs2 : RegIdx) (imm : Word) : Statement (.beq rs1 rs2 imm) := fun _ => opcodeField_append _ _
theorem bne (rs1 rs2 : RegIdx) (imm : Word) : Statement (.bne rs1 rs2 imm) := fun _ => opcodeField_append _ _
theorem bz (rs1 : RegIdx) (imm : Word) : Statement (.bz rs1 imm) := fun _ => opcodeField_append _ _
theorem bnz (rs1 : RegIdx) (imm : Word) : Statement (.bnz rs1 imm) := fun _ => opcodeField_append _ _
theorem blt (rs1 rs2 : RegIdx) (imm : Word) : Statement (.blt rs1 rs2 imm) := fun _ => opcodeField_append _ _
theorem bge (rs1 rs2 : RegIdx) (imm : Word) : Statement (.bge rs1 rs2 imm) := fun _ => opcodeField_append _ _
theorem bltu (rs1 rs2 : RegIdx) (imm : Word) : Statement (.bltu rs1 rs2 imm) := fun _ => opcodeField_append _ _
theorem bgeu (rs1 rs2 : RegIdx) (imm : Word) : Statement (.bgeu rs1 rs2 imm) := fun _ => opcodeField_append _ _
theorem sb (src base : RegIdx) (imm : Word) : Statement (.sb src base imm) := fun _ => opcodeField_append _ _
theorem sw (src base : RegIdx) (imm : Word) : Statement (.sw src base imm) := fun _ => opcodeField_append _ _
theorem lb (rd base : RegIdx) (imm : Word) : Statement (.lb rd base imm) := fun _ => opcodeField_append _ _
theorem lw (rd base : RegIdx) (imm : Word) : Statement (.lw rd base imm) := fun _ => opcodeField_append _ _
theorem lbu (rd base : RegIdx) (imm : Word) : Statement (.lbu rd base imm) := fun _ => opcodeField_append _ _
theorem j (imm : Word) : Statement (.j imm) := fun _ => opcodeField_append _ _
theorem jal (rd : RegIdx) (imm : Word) : Statement (.jal rd imm) := fun _ => opcodeField_append _ _
theorem lui (rd : RegIdx) (imm : Word) : Statement (.lui rd imm) := fun _ => opcodeField_append _ _
theorem auipc (rd : RegIdx) (imm : Word) : Statement (.auipc rd imm) := fun _ => opcodeField_append _ _
theorem ecall (svc : BitVec 10) : Statement (.ecall svc) := fun _ => opcodeField_append _ _

end Sys2Proof.Laws.OpcodeField
end

