-- ==== Sys2Proof/Machine/Asm.lean ====
section
/-! DEFINITION. The assembler syntax of spec/30_encoding.md rule R84 (this spec's own, decision D19): the text of an
instruction. It is no part of a step: the text of trace lines is out of scope (spec/00_scope.md rule R7). -/

namespace Sys2Proof.Machine

/-- The ABI name of a register (rule R21). -/
def abiName (r : RegIdx) : String :=
  if r = 0 then "t0"
  else if r = 1 then "ra"
  else if r = 2 then "sp"
  else if r = 3 then "s0"
  else if r = 4 then "s1"
  else if r = 5 then "t1"
  else if r = 6 then "a0"
  else "a1"

/-- `op rd, rs2`. -/
def asmRegs (op : String) (rd rs2 : RegIdx) : String := op ++ " " ++ abiName rd ++ ", " ++ abiName rs2

/-- A signed decimal. -/
def asmInt (v : Word) : String := toString v.toInt

/-- `op rd, imm`, the immediate a signed decimal; the form of bz, bnz and jal too. -/
def asmImm (op : String) (rd : RegIdx) (imm : Word) : String := op ++ " " ++ abiName rd ++ ", " ++ asmInt imm

/-- `op rd, n` with an unsigned number. -/
def asmNat (op : String) (rd : RegIdx) (n : Nat) : String := op ++ " " ++ abiName rd ++ ", " ++ toString n

/-- `op rs1, rs2, disp`. -/
def asmBranch (op : String) (rs1 rs2 : RegIdx) (imm : Word) : String := asmRegs op rs1 rs2 ++ ", " ++ asmInt imm

/-- `op r, imm(base)`. -/
def asmMem (op : String) (r base : RegIdx) (imm : Word) : String :=
  asmImm op r imm ++ "(" ++ abiName base ++ ")"

/-- The text of an instruction (rule R84). -/
def asm : Instr → String
  | .add rd rs2 => asmRegs "add" rd rs2
  | .sub rd rs2 => asmRegs "sub" rd rs2
  | .slt rd rs2 => asmRegs "slt" rd rs2
  | .sltu rd rs2 => asmRegs "sltu" rd rs2
  | .sll rd rs2 => asmRegs "sll" rd rs2
  | .srl rd rs2 => asmRegs "srl" rd rs2
  | .sra rd rs2 => asmRegs "sra" rd rs2
  | .or rd rs2 => asmRegs "or" rd rs2
  | .and rd rs2 => asmRegs "and" rd rs2
  | .xor rd rs2 => asmRegs "xor" rd rs2
  | .mv rd rs2 => asmRegs "mv" rd rs2
  | .jr rd => "jr " ++ abiName rd
  | .jalr rd rs2 => asmRegs "jalr" rd rs2
  | .addi rd imm => asmImm "addi" rd imm
  | .slti rd imm => asmImm "slti" rd imm
  | .ori rd imm => asmImm "ori" rd imm
  | .andi rd imm => asmImm "andi" rd imm
  | .xori rd imm => asmImm "xori" rd imm
  | .li rd imm => asmImm "li" rd imm
  | .sltui rd imm => asmNat "sltui" rd imm.toNat
  | .slli rd shamt => asmNat "slli" rd shamt.toNat
  | .srli rd shamt => asmNat "srli" rd shamt.toNat
  | .srai rd shamt => asmNat "srai" rd shamt.toNat
  | .beq rs1 rs2 imm => asmBranch "beq" rs1 rs2 imm
  | .bne rs1 rs2 imm => asmBranch "bne" rs1 rs2 imm
  | .blt rs1 rs2 imm => asmBranch "blt" rs1 rs2 imm
  | .bge rs1 rs2 imm => asmBranch "bge" rs1 rs2 imm
  | .bltu rs1 rs2 imm => asmBranch "bltu" rs1 rs2 imm
  | .bgeu rs1 rs2 imm => asmBranch "bgeu" rs1 rs2 imm
  | .bz rs1 imm => asmImm "bz" rs1 imm
  | .bnz rs1 imm => asmImm "bnz" rs1 imm
  | .sb src base imm => asmMem "sb" src base imm
  | .sw src base imm => asmMem "sw" src base imm
  | .lb rd base imm => asmMem "lb" rd base imm
  | .lw rd base imm => asmMem "lw" rd base imm
  | .lbu rd base imm => asmMem "lbu" rd base imm
  | .j imm => "j " ++ asmInt imm
  | .jal rd imm => asmImm "jal" rd imm
  | .lui rd imm => asmNat "lui" rd (imm.toNat / 128)
  | .auipc rd imm => asmNat "auipc" rd (imm.toNat / 128)
  | .ecall svc => "ecall " ++ toString svc.toNat

end Sys2Proof.Machine
end

