-- ==== Sys2Proof/Tests/Slice0.lean ====
section
/-! SUPPORT. Tests of the model on small cases, their expected values taken from the worked examples of spec/ (the R121 to
R195 examples and the vectors of spec/95_test_vectors.md), and a witness for every statement with hypotheses. -/

namespace Sys2Proof.Tests

open Sys2Proof Machine

/-! ## Helpers -/

/-- A running state at `pc` with some registers set, the memory `m`, and the word `w` placed at the pc. -/
def at' (c : Config) (pc : Word) (w : Nat) (rs : List (RegIdx × Word)) (m : Memory) : State :=
  (rs.foldl (fun (s : State) r => s.setReg r.1 r.2) { State.reset with pc := pc, cfg := c, mem := m }).withFetchWord 16 w

/-- The same at 0x0100 under the default parameters, as the spec's examples have it. -/
def at100 (w : Nat) (rs : List (RegIdx × Word)) (m : Memory) : State := at' defaultConfig 0x0100 w rs m

/-- The next state, if the step gives one. -/
def stepped (s : State) : Option State :=
  match step s with
  | .next t => some t
  | .fault _ => none
  | .refused _ => none

/-- a0 and pc after a step. -/
def a0Pc (s : State) : Option (Word × Word) := (stepped s).map fun t => (t.reg 6, t.pc)

/-- A register after a step. -/
def regAfter (s : State) (r : RegIdx) : Option Word := (stepped s).map fun t => t.reg r

/-- pc and status after a step. -/
def pcStatus (s : State) : Option (Word × Status) := (stepped s).map fun t => (t.pc, t.status)

/-- The events of a step after its trace record. -/
def eventsAfter (s : State) : Option (List Event) := (stepped s).map fun t => t.out.drop 1

/-! ## Well-formedness refuses each ill-formed immediate (rule R88) -/

theorem test_wf_imm_too_large : (Instr.addi 6 64).wf = false := by decide
theorem test_wf_imm_negative_ok : (Instr.addi 6 (-64)).wf = true := by decide
theorem test_wf_sltui_too_large : (Instr.sltui 6 128).wf = false := by decide
theorem test_wf_branch_odd : (Instr.beq 0 0 3).wf = false := by decide
theorem test_wf_branch_too_far : (Instr.bz 0 16).wf = false := by decide
theorem test_wf_offset_too_far : (Instr.lw 0 0 8).wf = false := by decide
theorem test_wf_jump_too_far : (Instr.j 512).wf = false := by decide
theorem test_wf_upper_low_bits : (Instr.lui 0 64).wf = false := by decide
theorem test_encoder_refuses : encodeChecked defaultTables (.jal 1 511) = none := by decide

/-! ## Decoding words written out from the spec's encodings (rules R63 to R78) -/

theorem test_decode_add : decodeTableWord 16 0b0000111110000000 = some (.add 6 7) := by decide
theorem test_decode_sub : decodeTableWord 16 0b0001111110000000 = some (.sub 6 7) := by decide
theorem test_decode_slt : decodeTableWord 16 0b0010111110001000 = some (.slt 6 7) := by decide
theorem test_decode_sltu : decodeTableWord 16 0b0011111110010000 = some (.sltu 6 7) := by decide
theorem test_decode_sll : decodeTableWord 16 0b0100111110011000 = some (.sll 6 7) := by decide
theorem test_decode_srl : decodeTableWord 16 0b0101111110011000 = some (.srl 6 7) := by decide
theorem test_decode_sra : decodeTableWord 16 0b0110111110011000 = some (.sra 6 7) := by decide
theorem test_decode_or : decodeTableWord 16 0b0111111110100000 = some (.or 6 7) := by decide
theorem test_decode_and : decodeTableWord 16 0b1000111110101000 = some (.and 6 7) := by decide
theorem test_decode_xor : decodeTableWord 16 0b1001111110110000 = some (.xor 6 7) := by decide
theorem test_decode_mv : decodeTableWord 16 0b1010111110111000 = some (.mv 6 7) := by decide
theorem test_decode_jr : decodeTableWord 16 0b1011101001000000 = some (.jr 1) := by decide
theorem test_decode_jalr : decodeTableWord 16 0b1100111001000000 = some (.jalr 1 7) := by decide
theorem test_decode_addi : decodeTableWord 16 0b1111111110000001 = some (.addi 6 0xFFFF) := by decide
theorem test_decode_slti : decodeTableWord 16 0b1000000110001001 = some (.slti 6 0xFFC0) := by decide
theorem test_decode_sltui : decodeTableWord 16 0b1111111110010001 = some (.sltui 6 127) := by decide
theorem test_decode_ori : decodeTableWord 16 0b1000000110100001 = some (.ori 6 0xFFC0) := by decide
theorem test_decode_andi : decodeTableWord 16 0b0111111110101001 = some (.andi 6 63) := by decide
theorem test_decode_xori : decodeTableWord 16 0b1111111110110001 = some (.xori 6 0xFFFF) := by decide
theorem test_decode_li : decodeTableWord 16 0b0000101000111001 = some (.li 0 5) := by decide
theorem test_decode_slli : decodeTableWord 16 0b0011111110011001 = some (.slli 6 15) := by decide
theorem test_decode_srli : decodeTableWord 16 0b0100100110011001 = some (.srli 6 4) := by decide
theorem test_decode_srai : decodeTableWord 16 0b1000100110011001 = some (.srai 6 4) := by decide
theorem test_decode_beq : decodeTableWord 16 0b1110111110000010 = some (.beq 6 7 0xFFFC) := by decide
theorem test_decode_bne : decodeTableWord 16 0b0111111110001010 = some (.bne 6 7 14) := by decide
theorem test_decode_bz : decodeTableWord 16 0b1000111110010010 = some (.bz 6 0xFFF0) := by decide
theorem test_decode_bnz : decodeTableWord 16 0b0100000110011010 = some (.bnz 6 8) := by decide
theorem test_decode_blt : decodeTableWord 16 0b0011111110100010 = some (.blt 6 7 6) := by decide
theorem test_decode_bge : decodeTableWord 16 0b0011111110101010 = some (.bge 6 7 6) := by decide
theorem test_decode_bltu : decodeTableWord 16 0b0011111110110010 = some (.bltu 6 7 6) := by decide
theorem test_decode_bgeu : decodeTableWord 16 0b0011111110111010 = some (.bgeu 6 7 6) := by decide
theorem test_decode_sb : decodeTableWord 16 0b1111010110000011 = some (.sb 6 2 0xFFFF) := by decide
theorem test_decode_sw : decodeTableWord 16 0b0010010110001011 = some (.sw 6 2 2) := by decide
theorem test_decode_lb : decodeTableWord 16 0b0111010110000100 = some (.lb 6 2 7) := by decide
theorem test_decode_lw : decodeTableWord 16 0b1000010110001100 = some (.lw 6 2 0xFFF8) := by decide
theorem test_decode_lbu : decodeTableWord 16 0b0111010110100100 = some (.lbu 6 2 7) := by decide
theorem test_decode_j : decodeTableWord 16 0b0000000111010101 = some (.j 4) := by decide
theorem test_decode_jal : decodeTableWord 16 0b1100000001000101 = some (.jal 1 0xFE00) := by decide
theorem test_decode_lui : decodeTableWord 16 0b0111111110111110 = some (.lui 6 0xFF80) := by decide
theorem test_decode_auipc : decodeTableWord 16 0b1000000110011110 = some (.auipc 6 0x0180) := by decide
theorem test_decode_ecall : decodeTableWord 16 0b1111111111000111 = some (.ecall 1023) := by decide
theorem test_decode_bad_funct : decodeWord defaultTables 0xD000 = .error .badFunct := by decide
theorem test_decode_bad_shift : decodeWord defaultTables 0x0199 = .error .badShiftMode := by decide
theorem test_decode_sys_reserved : decodeWord defaultTables 0x00CF = .error .sysReserved := by decide
theorem test_decode_truncated : decodeBytes defaultTables [0x39] = .error .truncated := by decide

/-- The decoder vector of 0x8999 (spec/95_test_vectors.md section 2). -/
theorem test_decoded_record : decode defaultTables 0x8999 =
    { fmt := .imm, op := .shift .srai, rdRs1 := 6, rs2 := 4, funct3 := 3, funct4 := 8, imm := 0, shamt := 4, link := 1,
      svc := 550, raw := 0x8999 } := by decide

/-- V-M15: with lbu = 2 in `L_FUNCT3` the word 0x0014 is lbu t0, 0(t0). -/
theorem test_decode_other_load_table :
    decodeWord { defaultTables with lFunct3 := [(0, .lb), (1, .lw), (2, .lbu)] } 0x0014 = .ok (.lbu 0 0 0) := by decide

theorem test_asm_store : asm (.sw 6 2 2) = "sw a0, 2(sp)" := by decide
theorem test_asm_branch : asm (.beq 0 7 (-4)) = "beq t0, a1, -4" := by decide

/-! ## One step of each instruction (the examples of rules R121 to R193) -/

/-- R121. -/
theorem test_add : a0Pc (at100 0x0F80 [(6, 0x7FFF), (7, 1)] []) = some (0x8000, 0x0102) := by decide

/-- R122. -/
theorem test_sub : a0Pc (at100 0x1F80 [(7, 1)] []) = some (0xFFFF, 0x0102) := by decide

/-- R123. -/
theorem test_slt : a0Pc (at100 0x2F88 [(6, 0xFFFF), (7, 1)] []) = some (1, 0x0102) := by decide

/-- R124. -/
theorem test_sltu : a0Pc (at100 0x3F90 [(6, 0xFFFF), (7, 1)] []) = some (0, 0x0102) := by decide

/-- R125. -/
theorem test_sll : a0Pc (at100 0x4F98 [(6, 1), (7, 0x13)] []) = some (8, 0x0102) := by decide

/-- R126. -/
theorem test_srl : a0Pc (at100 0x5F98 [(6, 0x8000), (7, 15)] []) = some (1, 0x0102) := by decide

/-- R127. -/
theorem test_sra : a0Pc (at100 0x6F98 [(6, 0x8000), (7, 0xFFFF)] []) = some (0xFFFF, 0x0102) := by decide

/-- R128. -/
theorem test_or : a0Pc (at100 0x7FA0 [(6, 0x00F0), (7, 0x0F0F)] []) = some (0x0FFF, 0x0102) := by decide

/-- R129. -/
theorem test_and : a0Pc (at100 0x8FA8 [(6, 0x00F0), (7, 0x0F0F)] []) = some (0, 0x0102) := by decide

/-- R130, V-RR18. -/
theorem test_xor_self : a0Pc (at100 0x9DB0 [(6, 0x1234)] []) = some (0, 0x0102) := by decide

/-- R131. -/
theorem test_mv : a0Pc (at100 0xAFB8 [(7, 0xBEEF)] []) = some (0xBEEF, 0x0102) := by decide

/-- V-I2. -/
theorem test_addi_wraps : a0Pc (at100 0x7F81 [(6, 0x7FFF)] []) = some (0x803E, 0x0102) := by decide

/-- V-I4. -/
theorem test_slti : a0Pc (at100 0x8189 [(6, 0xFFBF)] []) = some (1, 0x0102) := by decide

/-- R143. -/
theorem test_sltui : a0Pc (at100 0xFF91 [(6, 0x80)] []) = some (0, 0x0102) := by decide

/-- R147. -/
theorem test_ori : a0Pc (at100 0x81A1 [(6, 1)] []) = some (0xFFC1, 0x0102) := by decide

/-- R148. -/
theorem test_andi : a0Pc (at100 0x81A9 [(6, 0x1234)] []) = some (0x1200, 0x0102) := by decide

/-- R149. -/
theorem test_xori : a0Pc (at100 0xFFB1 [(6, 0x1234)] []) = some (0xEDCB, 0x0102) := by decide

/-- V-I17. -/
theorem test_li : a0Pc (at100 0x81B9 [] []) = some (0xFFC0, 0x0102) := by decide

/-- R144. -/
theorem test_slli : a0Pc (at100 0x3F99 [(6, 3)] []) = some (0x8000, 0x0102) := by decide

/-- R145. -/
theorem test_srli : a0Pc (at100 0x4999 [(6, 0xF000)] []) = some (0x0F00, 0x0102) := by decide

/-- R146. -/
theorem test_srai : a0Pc (at100 0x8999 [(6, 0xF000)] []) = some (0xFF00, 0x0102) := by decide

/-- R184. -/
theorem test_lui : a0Pc (at100 0x7FBE [] []) = some (0xFF80, 0x0102) := by decide

/-- V-U4. -/
theorem test_auipc_wraps : a0Pc (at100 0xFFBE [] []) = some (0x0080, 0x0102) := by decide

/-- V-RR22. -/
theorem test_jr_odd : pcStatus (at100 0xB040 [(1, 0x0201)] []) = some (0x0201, .running) := by decide

/-- R161. -/
theorem test_beq : pcStatus (at100 0xEF82 [(6, 5), (7, 5)] []) = some (0x00FC, .running) := by decide

/-- R162. -/
theorem test_bne : pcStatus (at100 0x7F8A [(6, 5), (7, 5)] []) = some (0x0102, .running) := by decide

/-- V-B6. -/
theorem test_bz_ignores_rs2 : pcStatus (at100 0x8F92 [] []) = some (0x00F0, .running) := by decide

/-- R164. -/
theorem test_bnz : pcStatus (at100 0x419A [(6, 1)] []) = some (0x0108, .running) := by decide

/-- R165. -/
theorem test_blt : pcStatus (at100 0x3FA2 [(6, 0xFFFF), (7, 1)] []) = some (0x0106, .running) := by decide

/-- R166. -/
theorem test_bge : pcStatus (at100 0x3FAA [(6, 0xFFFF), (7, 1)] []) = some (0x0102, .running) := by decide

/-- R167. -/
theorem test_bltu : pcStatus (at100 0x3FB2 [(6, 0xFFFF), (7, 1)] []) = some (0x0102, .running) := by decide

/-- R168. -/
theorem test_bgeu : pcStatus (at100 0x3FBA [(6, 0xFFFF), (7, 1)] []) = some (0x0106, .running) := by decide

/-- V-J4. -/
theorem test_j_ignores_rd : pcStatus (at100 0x01D5 [] []) = some (0x0104, .running) := by decide

/-- V-RR24: `jalr ra, ra` with after_link. -/
theorem test_jalr_after_link :
    (stepped (at100 0xC240 [(1, 0x0300)] [])).map (fun t => (t.reg 1, t.pc)) = some (0x0102, 0x0102) := by decide

/-- V-RR25: `jalr ra, ra` with before_link. -/
theorem test_jalr_before_link :
    (stepped (at' { defaultConfig with jalrAlias := .beforeLink } 0x0100 0xC240 [(1, 0x0300)] [])).map
      (fun t => (t.reg 1, t.pc)) = some (0x0102, 0x0300) := by decide

/-- R182: at 0x0100, `jal ra, -512`. -/
theorem test_jal_wraps :
    (stepped (at100 0xC045 [] [])).map (fun t => (t.reg 1, t.pc)) = some (0x0102, 0xFF00) := by decide

/-- V-J6: the same with `PC_OVERFLOW = exhaust`: the link is committed, then the run halts at the jal. -/
theorem test_jal_exhausts :
    (stepped (at' { defaultConfig with pcOverflow := .exhaust } 0x0100 0xC045 [] [])).map
      (fun t => (t.reg 1, t.pc, t.status)) = some (0x0102, 0x0100, .halted .exhausted) := by decide

/-- R171: `sb a0, -1(sp)`. -/
theorem test_sb : (stepped (at100 0xF583 [(6, 0x12FF), (2, 0x1000)] [])).map
    (fun t => (t.mem.read 0x0FFF, t.mem.read 0x1000)) = some (0xFF, 0) := by decide

/-- V-M4: `sw a0, 0(sp)` at the last word. -/
theorem test_sw_at_top : (stepped (at100 0x058B [(6, 0x1234), (2, 0xFFFE)] [])).map
    (fun t => (t.mem.read 0xFFFE, t.mem.read 0xFFFF, t.pc)) = some (0x34, 0x12, 0x0102) := by decide

/-- V-M5: one byte further it faults and writes neither byte. -/
theorem test_sw_faults : (stepped (at100 0x058B [(6, 0x1234), (2, 0xFFFF)] [])).map
    (fun t => (t.mem.read 0xFFFF, t.mem.read 0, t.pc, t.status)) =
      some (0, 0, 0x0100, .faulted .addressingFault 0x0100 (some 0x058B)) := by decide

/-- R173: `lb a0, 7(sp)` sign-extends. -/
theorem test_lb : a0Pc (at100 0x7584 [(2, 0x0FF9)] [(0x1000, 0x80)]) = some (0xFF80, 0x0102) := by decide

/-- V-M12: EA = −1 does not wrap. -/
theorem test_lb_negative : pcStatus (at100 0xF584 [] []) =
    some (0x0100, .faulted .addressingFault 0x0100 (some 0xF584)) := by decide

/-- R175: `lbu a0, 7(sp)` zero-extends. -/
theorem test_lbu : a0Pc (at100 0x75A4 [(2, 0x0FF9)] [(0x1000, 0x80)]) = some (0x0080, 0x0102) := by decide

/-- V-M10: `lw a0, 1(sp)` unaligned. -/
theorem test_lw_odd :
    a0Pc (at100 0x158C [(2, 0x1000)] [(0x1001, 0x7F), (0x1002, 0x12)]) = some (0x127F, 0x0102) := by decide

/-- V-M11: `lw sp, 0(sp)` overwrites its base. -/
theorem test_lw_base :
    regAfter (at100 0x048C [(2, 0x1000)] [(0x1000, 0x80), (0x1001, 0x7F)]) 2 = some 0x7F80 := by decide

/-- V-S1: `ecall 1`, shown as −7. -/
theorem test_ecall_print_int : eventsAfter (at100 0x0047 [(6, 0xFFF9)] []) = some [.printInt 0xFFF9] ∧
    printedInt 0xFFF9 = -7 := by decide

/-- V-S3: `ecall 5` prints "hi". -/
theorem test_ecall_print_str :
    eventsAfter (at100 0x0147 [(6, 0x2000)] [(0x2000, 0x68), (0x2001, 0x69)]) = some [.printStr [0x68, 0x69]] := by
  decide

/-- V-S6: no terminator before the end of memory. -/
theorem test_ecall_unterminated :
    (stepped (at100 0x0147 [(6, 0xFFFE)] [(0xFFFE, 0x41), (0xFFFF, 0x42)])).map (fun t => (t.out.drop 1, t.status)) =
      some ([], .faulted .unterminatedString 0x0100 (some 0x0147)) := by decide

/-- V-S7: `ecall 3` halts, pc kept. -/
theorem test_ecall_halt : pcStatus (at100 0x00C7 [] []) = some (0x0100, .halted .ecall) := by decide

/-- V-S10: `ecall 1023` halts with `HALT_SVC = 0x3FF`. -/
theorem test_ecall_halt_3ff : pcStatus (at' { defaultConfig with haltSvc := .svc3FF } 0x0100 0xFFC7 [] []) =
    some (0x0100, .halted .ecall) := by decide

/-- V-S9: `ecall 1023` is undefined by default. -/
theorem test_ecall_undefined :
    (stepped (at100 0xFFC7 [] [])).map (fun t => (t.out.drop 1, t.status)) =
      some ([.unimplemented 0x0100 0xFFC7], .faulted .unimplementedOperation 0x0100 (some 0xFFC7)) := by decide

/-! ## The sequencer (spec/95_test_vectors.md section 3.7) -/

/-- V-RR28: an UNIMPL word is passed over under `continue`. -/
theorem test_unimpl_continues :
    (stepped (at' { defaultConfig with unimplPolicy := .continues } 0x0100 0xD000 [] [])).map
      (fun t => (t.out.drop 1, t.pc, t.status)) = some ([.unimplemented 0x0100 0xD000], 0x0102, .running) := by decide

/-- V-P1: exhaustion at 0xFFFF, without a trace. -/
theorem test_exhaustion : (stepped { State.reset with pc := 0xFFFF }).map (fun t => (t.out, t.pc, t.status)) =
    some ([], 0xFFFF, .halted .exhausted) := by decide

/-- V-P2: an odd fetch faults with no word and no trace. -/
theorem test_odd_fetch : (stepped (at' defaultConfig 0x0201 0x0A39 [] [])).map (fun t => (t.out, t.status)) =
    some ([], .faulted .misalignedFetch 0x0201 none) := by decide

/-- V-P3: with `ODD_FETCH = unaligned` it runs. -/
theorem test_odd_fetch_unaligned :
    (stepped (at' { defaultConfig with oddFetch := .unaligned } 0x0201 0x0A39 [] [])).map
      (fun t => (t.reg 0, t.pc)) = some (5, 0x0203) := by decide

/-- V-P4 and V-P5: pc + 2 past the top wraps, or ends the run with the register written. -/
theorem test_pc_overflow :
    a0Pc (at' defaultConfig 0xFFFE 0x03B9 [] []) = some (1, 0) ∧
    (stepped (at' { defaultConfig with pcOverflow := .exhaust } 0xFFFE 0x03B9 [] [])).map
      (fun t => (t.reg 6, t.pc, t.status)) = some (1, 0xFFFE, .halted .exhausted) := by decide

/-- A halted state has no step (rule R109). -/
theorem test_halted_has_no_step : step { State.reset with status := .halted .ecall } = .fault .alreadyHalted := rfl

/-! ## Witnesses: states and operands that meet the hypotheses of the statements of Obligations.lean, at the bounds -/

/-- ReencodeKeepsWord and DecodedInstructionWellFormed. -/
theorem witness_ReencodeKeepsWord : decodeWord defaultTables 0xB040 = .ok (.jr 1) := by decide
theorem witness_DecodeEncodeRoundTrip :
    tablesOk defaultTables = true ∧ (Instr.jal 1 0xFE00).wf = true ∧ (Instr.lui 6 0xFF80).wf = true := by decide
/-- Every format has a word (OpcodeSelectsFormat, ImmediatesAssembled). -/
theorem witness_OpcodeSelectsFormat : ∀ k < 8, (BitVec.ofNat 16 k).toNat % 8 = k := by decide
/-- A word each row's pattern matches (OpcodeTableSelects, the Spells clauses). -/
theorem witness_Spells : (0x0F80 : Word) &&& 0xF03F = 0x0000 ∧ (0x3F99 : Word) &&& 0xE03F = 0x2019 ∧
    (0xF583 : Word) &&& 0x003F = 0x0003 ∧ (0xC045 : Word) &&& 0x8007 = 0x8005 := by decide
theorem witness_LinkBitSelectsJumpAndUpper : (0x01D5 : Word) &&& 0x8007 = 0x0005 ∧
    (0xFFFD : Word) &&& 0x8007 = 0x8005 ∧ (0x7FBE : Word) &&& 0x8007 = 0x0006 ∧
    (0x819E : Word) &&& 0x8007 = 0x8006 ∧ (0x819E : Word).toNat % 8 = 6 := by decide
theorem witness_EcallSelectsEveryService : (0xFFC7 : Word) &&& 0x003F = 0x0007 ∧
    (0x00CF : Word).toNat % 8 = 7 ∧ (0x00CF : Word).toNat / 8 % 8 ≠ 0 := by decide
/-- A word of each of three rows (OpcodeTableSelects). -/
theorem witness_OpcodeTableSelects : ((0x0000, 0xF03F, .reg .add) : Word × Word × Op) ∈ opcodeRows ∧
    ((0x8019, 0xE03F, .shift .srai) : Word × Word × Op) ∈ opcodeRows ∧ (0x9F99 : Word) &&& 0xE03F = 0x8019 ∧
    ((0x0007, 0x003F, .ecall) : Word × Word × Op) ∈ opcodeRows ∧ (0xFFC7 : Word) &&& 0x003F = 0x0007 := by decide
/-- Words of no row in each of the three cases (OtherWordsUnimplemented). -/
theorem witness_OtherWordsUnimplemented_rows :
    (∀ row ∈ opcodeRows, (0xD000 : Word) &&& row.2.1 ≠ row.1) ∧ (∀ row ∈ opcodeRows, (0x0013 : Word) &&& row.2.1 ≠ row.1) ∧
    (∀ row ∈ opcodeRows, (0x0199 : Word) &&& row.2.1 ≠ row.1) ∧
    ∀ row ∈ opcodeRows, (0x00CF : Word) &&& row.2.1 ≠ row.1 := by decide
/-- What the decoder makes of them. -/
theorem witness_OtherWordsUnimplemented : (decode defaultTables 0xD000).op = .unimpl .badFunct ∧
    (decode defaultTables 0x0013).op = .unimpl .badFunct ∧ (decode defaultTables 0x0199).op = .unimpl .badShiftMode ∧
    (decode defaultTables 0x00CF).op = .unimpl .sysReserved := by decide
/-- sb at the first and the last byte, and one below and one above them (SbResult, LbLbuResult). -/
theorem witness_SbResult :
    StateInv (at100 0 [(2, 0xFFF8), (3, 8)] []) ∧ EaOk (at100 0 [(2, 0xFFF8), (3, 8)] []) 2 7 1 ∧
    EaOk (at100 0 [(2, 0xFFF8), (3, 8)] []) 3 (-8) 1 ∧ ¬EaOk (at100 0 [(2, 0xFFF9), (3, 7)] []) 2 7 1 ∧
    ¬EaOk (at100 0 [(2, 0xFFF9), (3, 7)] []) 3 (-8) 1 := by decide
/-- sw at 0xFFFE is admitted, at 0xFFFF and at −1 it is not (SwResult, LwResult). -/
theorem witness_SwResult :
    StateInv (at100 0 [(2, 0xFFFE)] []) ∧ EaOk (at100 0 [(2, 0xFFFE)] []) 2 0 2 ∧ EaOk (at100 0 [] []) 0 0 2 ∧
    ¬EaOk (at100 0 [(2, 0xFFFE)] []) 2 1 2 ∧ ¬EaOk (at100 0 [] []) 0 (-1) 2 := by decide
/-- The address a load's clauses speak of (LbLbuResult, LwResult). -/
theorem witness_LoadResults : ((0xFFFF : Nat) : Int) = eaInt (at100 0 [(2, 0xFFF8)] []) 2 7 ∧
    ((0xFFFE : Nat) : Int) = eaInt (at100 0 [(2, 0xFFF8)] []) 2 6 := by decide
/-- An empty string, one byte at the top of memory, and no terminator (EcallPrintsString). -/
theorem witness_EcallPrintsString :
    ((at100 0 [(6, 0x2000)] []).mem.read 0x2000).toNat = 0 ∧
    ((at100 0 [(6, 0xFFFE)] [(0xFFFE, 0x41)]).mem.read (0xFFFE + 1)).toNat = 0 ∧
    (∀ k < 1, ((at100 0 [(6, 0xFFFE)] [(0xFFFE, 0x41)]).mem.read (0xFFFE + k)).toNat ≠ 0) := by decide
theorem witness_EcallPrintsString_unterminated :
    ∀ a, ((at100 0 [(6, 0xFFFF)] [(0xFFFF, 0x42)]).reg 6).toNat ≤ a → a < 65536 →
      ((at100 0 [(6, 0xFFFF)] [(0xFFFF, 0x42)]).mem.read a).toNat ≠ 0 := by
  intro a h1 h2
  have h3 : ((at100 0 [(6, 0xFFFF)] [(0xFFFF, 0x42)]).reg 6).toNat = 65535 := by decide
  have ha : a = 65535 := by omega
  subst ha
  decide
theorem witness_EcallHalts : (at100 0x00C7 [] []).cfg.haltSvc = .svc3 ∧
    ({ State.reset with cfg := { defaultConfig with haltSvc := .svc3FF } } : State).cfg.haltSvc = .svc3FF := by decide
theorem witness_UndefinedServiceByPolicy : (0 : BitVec 10) ≠ 1 ∧ (0 : BitVec 10) ≠ 5 ∧ (0 : BitVec 10) ≠ 3 ∧
    (1023 : BitVec 10) ≠ 1 ∧ (1023 : BitVec 10) ≠ 5 ∧ State.reset.cfg.haltSvc = .svc3 ∧
    State.reset.cfg.unimplPolicy = .fault := by decide
/-- An even pc, the last one that fetches, and an odd one under `unaligned` (StepRunsDecodedInstruction, and with the
UNIMPL word 0xD000 UnimplementedWordByPolicy; TraceOncePerFetchedWord for the first and the last). -/
theorem witness_StepRunsDecodedInstruction :
    Fetches (at100 0x0F80 [] []) ∧ FetchedWord (at100 0x0F80 [] []) 0x0F80 ∧
    decodeWord (at100 0x0F80 [] []).cfg.tables 0x0F80 = .ok (.add 6 7) ∧
    Fetches (at' defaultConfig 0xFFFE 0x03B9 [] []) ∧ FetchedWord (at' defaultConfig 0xFFFE 0x03B9 [] []) 0x03B9 ∧
    Fetches (at' { defaultConfig with oddFetch := .unaligned } 0x0201 0x0A39 [] []) := by decide
/-- Under `continues`: a pc whose advance stays inside, and under `exhaust` too the last one, whose advance does not
(UndefinedServiceByPolicy with ecall 0, UnimplementedWordByPolicy with 0xD000). -/
theorem witness_continues :
    (at' { defaultConfig with unimplPolicy := .continues } 0x0100 0x0007 [] []).cfg.unimplPolicy = .continues ∧
    (at' { defaultConfig with unimplPolicy := .continues } 0x0100 0x0007 [] []).cfg.haltSvc = .svc3 ∧
    (0 : BitVec 10) ≠ 1 ∧ (0 : BitVec 10) ≠ 5 ∧ (0 : BitVec 10) ≠ 3 ∧
    (at' { defaultConfig with unimplPolicy := .continues, pcOverflow := .exhaust } 0xFFFE 0xD000 [] []).cfg.pcOverflow =
      .exhaust ∧
    Fetches (at' { defaultConfig with unimplPolicy := .continues, pcOverflow := .exhaust } 0xFFFE 0xD000 [] []) := by
  decide
/-- V-S11: with `HALT_SVC = 0x3FF` and `continue`, ecall 3 is reported and passed over. -/
theorem test_ecall_undefined_continues :
    (stepped (at' { defaultConfig with haltSvc := .svc3FF, unimplPolicy := .continues } 0x0100 0x00C7 [] [])).map
      (fun t => (t.out.drop 1, t.pc, t.status)) = some ([.unimplemented 0x0100 0x00C7], 0x0102, .running) := by decide
theorem witness_UnimplementedWordByPolicy : Fetches (at100 0xD000 [] []) ∧
    FetchedWord (at100 0xD000 [] []) 0xD000 ∧
    decodeWord (at100 0xD000 [] []).cfg.tables 0xD000 = .error .badFunct := by decide
theorem witness_ExhaustionHaltsBeforeFetch :
    ({ State.reset with pc := 0xFFFF } : State).status = .running ∧ (0xFFFF : Word).toNat + 1 ≥ 65536 := by decide
theorem witness_OddFetchFaultsByPolicy : (at' defaultConfig 0xFFFD 0 [] []).status = .running ∧
    (0xFFFD : Word).toNat % 2 = 1 ∧ (0xFFFD : Word).toNat < 65535 ∧
    (at' defaultConfig 0xFFFD 0 [] []).cfg.oddFetch = .fault := by decide
/-- A status of each kind (StepOnlyWhenRunning). -/
theorem witness_StepOnlyWhenRunning : State.reset.status = .running ∧ endedNormally (.halted .exhausted) = true ∧
    endedAbnormally (.faulted .misalignedFetch 1 none) = true := by decide
/-- A canonical memory, the last byte and the last word (MemoryReadsAfterWrites). -/
theorem witness_MemoryReadsAfterWrites : Memory.wf [(3, 1), (0xFFFF, 2)] = true ∧ 0xFFFF < 65536 ∧ 0xFFFE + 1 < 65536 ∧
    Memory.wf [(3, 1), (3, 2)] = false ∧ Memory.wf [(3, 0)] = false ∧ Memory.wf [(65536, 1)] = false := by decide
/-- A state that steps, and stores (MemoryStaysCanonical, OutputOnlyAppendedNeverRead, OnlyStoresWriteMemory). -/
theorem witness_MemoryStaysCanonical : StateInv (at100 0x0583 [(6, 0x41), (2, 0x1000)] []) ∧
    (stepped (at100 0x0583 [(6, 0x41), (2, 0x1000)] [])).map (fun t => decide (t.mem.read 0x1000 ≠ 0)) = some true := by
  decide
/-- Under 3FF, 3 is undefined too (UndefinedServiceByPolicy), and 0x3FF is not. -/
theorem witness_UndefinedServiceByPolicy_3FF : (HaltSvc.svc3FF = .svc3 → (3 : BitVec 10) ≠ 3) ∧
    (HaltSvc.svc3FF = .svc3FF → (3 : BitVec 10) ≠ 0x3FF) := by decide
/-- A whole memory may be launched, and one byte more may not (LaunchState). -/
theorem witness_LaunchState_length (c : Config) : (List.replicate 65536 (7 : Byte)).length ≤ 65536 ∧
    launch c (List.replicate 65537 7) = none := by
  refine ⟨by rw [List.length_replicate], ?_⟩
  unfold launch
  rw [List.length_replicate]
  exact if_neg (by omega)
/-- An image that launches (LaunchState, ResetMemoryCanonical). -/
theorem witness_LaunchState : (launch defaultConfig [0x39, 0x0A]).map (fun s => (s.mem.read 0, s.mem.read 1, s.pc)) =
    some (0x39, 0x0A, 0) := by decide
/-- A step that ends in a fault of each cause (FaultsCommitNothing, FaultCausesHaveSources). -/
theorem witness_FaultsCommitNothing :
    (stepped (at100 0xF584 [] [])).map (fun t => t.status) = some (.faulted .addressingFault 0x0100 (some 0xF584)) ∧
    (stepped (at100 0xD000 [] [])).map (fun t => t.status) =
      some (.faulted .unimplementedOperation 0x0100 (some 0xD000)) ∧
    (stepped (at100 0x0147 [(6, 0xFFFF)] [(0xFFFF, 0x42)])).map (fun t => t.status) =
      some (.faulted .unterminatedString 0x0100 (some 0x0147)) ∧
    (stepped (at' defaultConfig 0xFFFD 0 [] [])).map (fun t => t.status) =
      some (.faulted .misalignedFetch 0xFFFD none) := by decide
/-- An even pc left odd (OnlyRegisterJumpsMakePcOdd). -/
theorem witness_OnlyRegisterJumpsMakePcOdd : (at100 0xB040 [(1, 0x0201)] []).pc.toNat % 2 = 0 ∧
    (stepped (at100 0xB040 [(1, 0x0201)] [])).map (fun t => t.pc.toNat % 2) = some 1 := by decide
/-- `sw a1, 2(s0)` over the next instruction, at the top of memory too (StoreSeenByNextFetch). -/
theorem witness_StoreSeenByNextFetch :
    StateInv (at100 0x27CB [(3, 0x0100), (7, 0x0A39)] []) ∧ (at100 0x27CB [(3, 0x0100)] []).pc.toNat + 3 < 65536 ∧
    eaInt (at100 0x27CB [(3, 0x0100)] []) 3 2 = (at100 0x27CB [(3, 0x0100)] []).pc.toNat + 2 ∧
    eaInt (at' defaultConfig 0xFFFC 0x27CB [(3, 0xFFFC)] []) 3 2 = (0xFFFC : Word).toNat + 2 ∧
    (0xFFFC : Word).toNat + 3 < 65536 := by decide
/-- A run of one step, and the state before it (RunEndsWhenStopped). -/
theorem witness_RunEndsWhenStopped :
    Host.Core.run core 0 (at100 0x00C7 [] []) = .next (at100 0x00C7 [] []) ∧
    Host.Core.run core 1 (at100 0x00C7 [] []) = step (at100 0x00C7 [] []) ∧
    (stepped (at100 0x00C7 [] [])).isSome = true := by
  refine ⟨rfl, ?_, by decide⟩
  simp only [Host.Core.run, core]
  cases step (at100 0x00C7 [] []) <;> rfl

end Sys2Proof.Tests
end

section
/-! PROOFS. What `exec` can do, said once: the shapes of the 41 meanings, each with the register it writes and the
displacement it takes. The proofs below split an instruction by its shape. -/

namespace Sys2Proof.Machine

open Host (Outcome)

/-- `s` with the output stream `o` in place of its own. -/
def State.withOut (s : State) (o : List Event) : State := { s with out := o }

/-- The displacement of a pc-relative instruction (rule R106): branches, j and jal. -/
def displacement : Instr → Option Word
  | .beq _ _ imm => some imm
  | .bne _ _ imm => some imm
  | .bz _ imm => some imm
  | .bnz _ imm => some imm
  | .blt _ _ imm => some imm
  | .bge _ _ imm => some imm
  | .bltu _ _ imm => some imm
  | .bgeu _ _ imm => some imm
  | .j imm => some imm
  | .jal _ imm => some imm
  | _ => none

/-- The shapes of a meaning. What an instruction computes from the state (a value, a condition, a memory) is a function
`v`, `c` or `put` of the state that does not read the output stream. -/
inductive ExecShape (i : Instr) : Prop
  /-- A register write, then the next instruction: RegReg, Imm and Upper. -/
  | writes (rd : RegIdx) (v : State → Word) (hd : destReg i = some rd) (hv : ∀ s o, v (s.withOut o) = v s)
      (he : ∀ s, exec i s = .next (s.setReg rd (v s)).advance)
  /-- A load. -/
  | loads (n : Nat) (get : Memory → Nat → Word) (rd base : RegIdx) (imm : Word) (hd : destReg i = some rd)
      (he : ∀ s, exec i s = loadOp n get rd base imm s)
  /-- A store. -/
  | stores (n : Nat) (put : State → Memory → Nat → Memory) (base : RegIdx) (imm : Word)
      (hv : ∀ s o, put (s.withOut o) = put s) (he : ∀ s, exec i s = storeOp n (put s) base imm s)
  /-- A branch; j is the branch whose condition always holds. -/
  | branches (c : State → Bool) (imm : Word) (hp : displacement i = some imm) (hv : ∀ s o, c (s.withOut o) = c s)
      (he : ∀ s, exec i s = branchIf (c s) imm s)
  | jal (rd : RegIdx) (imm : Word) (hi : i = .jal rd imm)
  | jr (rd : RegIdx) (hi : i = .jr rd)
  | jalr (rd rs2 : RegIdx) (hi : i = .jalr rd rs2)
  | ecall (svc : BitVec 10) (hi : i = .ecall svc)

/-- Every instruction has one of the shapes. -/
theorem execShape (i : Instr) : ExecShape i := by
  cases i with
  | jr rd => exact .jr rd rfl
  | jalr rd rs2 => exact .jalr rd rs2 rfl
  | jal rd imm => exact .jal rd imm rfl
  | ecall svc => exact .ecall svc rfl
  | j imm => exact .branches (fun _ => true) imm rfl (fun _ _ => rfl) (fun _ => rfl)
  | beq | bne | bz | bnz | blt | bge | bltu | bgeu => exact .branches _ _ rfl (fun _ _ => rfl) (fun _ => rfl)
  | sb src base imm =>
    exact .stores 1 (fun s m a => m.write a (loByte (s.reg src))) base imm (fun _ _ => rfl) (fun _ => rfl)
  | sw src base imm =>
    exact .stores 2 (fun s m a => m.writeWord a (s.reg src)) base imm (fun _ _ => rfl) (fun _ => rfl)
  | lb rd base imm => exact .loads 1 (fun m a => (m.read a).signExtend 16) rd base imm rfl (fun _ => rfl)
  | lw rd base imm => exact .loads 2 Memory.readWord rd base imm rfl (fun _ => rfl)
  | lbu rd base imm => exact .loads 1 (fun m a => (m.read a).zeroExtend 16) rd base imm rfl (fun _ => rfl)
  | _ => exact .writes _ _ rfl (fun _ _ => rfl) (fun _ => rfl)

end Sys2Proof.Machine
end

section
/-! PROOFS. The output stream (rules R35, R112): every shared operation commutes with replacing the stream, so a step
appends the same events whatever stands in it. -/

namespace Sys2Proof.Machine

open Host (Outcome)

theorem State.withOut_self (s : State) : s.withOut s.out = s := rfl
@[simp] theorem State.withOut_regs (s : State) (o : List Event) : (s.withOut o).regs = s.regs := rfl
@[simp] theorem State.withOut_pc (s : State) (o : List Event) : (s.withOut o).pc = s.pc := rfl
@[simp] theorem State.withOut_mem (s : State) (o : List Event) : (s.withOut o).mem = s.mem := rfl
@[simp] theorem State.withOut_status (s : State) (o : List Event) : (s.withOut o).status = s.status := rfl
@[simp] theorem State.withOut_out (s : State) (o : List Event) : (s.withOut o).out = o := rfl
@[simp] theorem State.withOut_cfg (s : State) (o : List Event) : (s.withOut o).cfg = s.cfg := rfl
@[simp] theorem State.withOut_reg (s : State) (o : List Event) (r : RegIdx) : (s.withOut o).reg r = s.reg r := rfl
@[simp] theorem State.withOut_instrWord (s : State) (o : List Event) : (s.withOut o).instrWord = s.instrWord := rfl
@[simp] theorem withOut_linkValue (s : State) (o : List Event) : linkValue (s.withOut o) = linkValue s := rfl
@[simp] theorem withOut_accessAddress (s : State) (o : List Event) (base : RegIdx) (imm : Word) (n : Nat) :
    accessAddress (s.withOut o) base imm n = accessAddress s base imm n := rfl

@[simp] theorem State.withOut_setReg (s : State) (o : List Event) (r : RegIdx) (v : Word) :
    (s.withOut o).setReg r v = (s.setReg r v).withOut o := rfl
@[simp] theorem State.withOut_setPc (s : State) (o : List Event) (p : Word) :
    (s.withOut o).setPc p = (s.setPc p).withOut o := rfl
@[simp] theorem State.withOut_setMem (s : State) (o : List Event) (m : Memory) :
    (s.withOut o).setMem m = (s.setMem m).withOut o := rfl
@[simp] theorem State.withOut_halt (s : State) (o : List Event) (c : HaltCause) :
    (s.withOut o).halt c = (s.halt c).withOut o := rfl
@[simp] theorem State.withOut_emit (s : State) (o : List Event) (e : Event) :
    (s.withOut o).emit e = (s.emit e).withOut (o ++ [e]) := rfl
@[simp] theorem State.withOut_raiseFault (s : State) (o : List Event) (c : FaultCause) :
    (s.withOut o).raiseFault c = (s.raiseFault c).withOut o := by cases c <;> rfl
@[simp] theorem State.withOut_movePc (s : State) (o : List Event) (off : Int) :
    (s.withOut o).movePc off = (s.movePc off).withOut o := by
  unfold State.movePc
  rw [apply_ite (State.withOut · o)]
  rfl

/-- `f` completes from `s` with the parameters kept, and with any stream `o` in `s` it reaches the same state, the same
events appended to `o`. -/
def AppendsOnly (f : State → Outcome State Fault Refusal) (s : State) : Prop :=
  ∃ (t : State) (es : List Event), t.cfg = s.cfg ∧ ∀ o, f (s.withOut o) = .next (t.withOut (o ++ es))

theorem AppendsOnly.congr {f g : State → Outcome State Fault Refusal} {s : State}
    (hfg : ∀ o, f (s.withOut o) = g (s.withOut o)) (hg : AppendsOnly g s) : AppendsOnly f s := by
  obtain ⟨t, es, hc, h⟩ := hg
  exact ⟨t, es, hc, fun o => (hfg o).trans (h o)⟩

/-- What runs after an event has been emitted still only appends. -/
theorem AppendsOnly.of_emit {f g : State → Outcome State Fault Refusal} {s : State} (e : Event)
    (hfg : ∀ o, f (s.withOut o) = g ((s.withOut o).emit e)) (hg : AppendsOnly g (s.emit e)) : AppendsOnly f s := by
  obtain ⟨t, es, hc, h⟩ := hg
  exact ⟨t, e :: es, hc, fun o => by rw [hfg, State.withOut_emit, h, List.append_assoc, List.singleton_append]⟩

theorem unimplemented_appendsOnly (s : State) : AppendsOnly (fun s => .next s.unimplemented) s := by
  refine ⟨s.unimplemented, [.unimplemented s.pc s.instrWord], ?_, fun o => ?_⟩
  · rcases s.unimplemented_cases with ⟨-, h⟩ | ⟨-, h⟩ <;> simp [h]
  · unfold State.unimplemented
    cases hp : s.cfg.unimplPolicy <;> simp [hp]

theorem loadOp_appendsOnly (n : Nat) (get : Memory → Nat → Word) (rd base : RegIdx) (imm : Word) (s : State) :
    AppendsOnly (loadOp n get rd base imm) s := by
  cases ha : accessAddress s base imm n with
  | some a => exact ⟨(s.setReg rd (get s.mem a)).advance, [], by simp, fun o => by simp [loadOp, ha]⟩
  | none => exact ⟨s.raiseFault .addressingFault, [], rfl, fun o => by simp [loadOp, ha]⟩

theorem storeOp_appendsOnly (n : Nat) (put : Memory → Nat → Memory) (base : RegIdx) (imm : Word) (s : State) :
    AppendsOnly (storeOp n put base imm) s := by
  cases ha : accessAddress s base imm n with
  | some a => exact ⟨(s.setMem (put s.mem a)).advance, [], by simp, fun o => by simp [storeOp, ha]⟩
  | none => exact ⟨s.raiseFault .addressingFault, [], rfl, fun o => by simp [storeOp, ha]⟩

theorem branchIf_appendsOnly (c : Bool) (imm : Word) (s : State) : AppendsOnly (branchIf c imm) s := by
  cases c with
  | true => exact ⟨s.movePc imm.toInt, [], by simp, fun o => by simp [branchIf]⟩
  | false => exact ⟨s.advance, [], by simp, fun o => by simp [branchIf]⟩

theorem printStrService_appendsOnly (s : State) : AppendsOnly (fun s => .next (printStrService s)) s := by
  cases hb : stringAt s.mem (s.reg a0).toNat with
  | some bs =>
    exact ⟨(s.emit (.printStr bs)).advance, [.printStr bs], by simp, fun o => by simp [printStrService, hb]⟩
  | none => exact ⟨s.raiseFault .unterminatedString, [], rfl, fun o => by simp [printStrService, hb]⟩

theorem execJalr_appendsOnly (rd rs2 : RegIdx) (s : State) : AppendsOnly (execJalr rd rs2) s := by
  refine ⟨(s.setReg rd (linkValue s)).setPc (jalrTarget s (s.setReg rd (linkValue s)) rs2), [], rfl, fun o => ?_⟩
  simp [execJalr, jalrTarget]

/-- ecall appends what the service it runs appends (rule R190). -/
theorem execEcall_appendsOnly (svc : BitVec 10) (s : State) : AppendsOnly (execEcall svc) s := by
  by_cases hh : svc = haltSvcNumber s.cfg.haltSvc
  · exact ⟨haltService s, [], rfl, fun o => by
      rw [execEcall, State.withOut_cfg, if_pos hh, List.append_nil]; rfl⟩
  by_cases h1 : svc = 1
  · refine ⟨printIntService s, [.printInt (s.reg a0)], by simp [printIntService], fun o => ?_⟩
    rw [execEcall, State.withOut_cfg, if_neg hh, if_pos h1]
    simp [printIntService]
  by_cases h5 : svc = 5
  · exact .congr (fun o => by rw [execEcall, State.withOut_cfg, if_neg hh, if_neg h1, if_pos h5])
      (printStrService_appendsOnly s)
  · exact .congr (fun o => by rw [execEcall, State.withOut_cfg, if_neg hh, if_neg h1, if_neg h5])
      (unimplemented_appendsOnly s)

/-- Every instruction only appends (rule R35). -/
theorem exec_appendsOnly (i : Instr) (s : State) : AppendsOnly (exec i) s := by
  cases execShape i with
  | writes rd v _ hv he => exact ⟨(s.setReg rd (v s)).advance, [], by simp, fun o => by simp [he, hv]⟩
  | loads n get rd base imm _ he => exact .congr (fun _ => he _) (loadOp_appendsOnly n get rd base imm s)
  | stores n put base imm hv he =>
    exact .congr (fun o => by rw [he, hv]) (storeOp_appendsOnly n (put s) base imm s)
  | branches c imm _ hv he => exact .congr (fun o => by rw [he, hv]) (branchIf_appendsOnly (c s) imm s)
  | jal rd imm hi =>
    subst hi
    exact ⟨(s.setReg rd (linkValue s)).movePc imm.toInt, [], by simp, fun o => by simp [exec, execJal]⟩
  | jr rd hi => subst hi; exact ⟨s.setPc (s.reg rd), [], rfl, fun o => by simp [exec, execJr]⟩
  | jalr rd rs2 hi => subst hi; exact execJalr_appendsOnly rd rs2 s
  | ecall svc hi => subst hi; exact execEcall_appendsOnly svc s

/-! ## The front of a step, forwards (rule R109) -/

/-- The trace record of the word at the pc (rule R105). -/
def State.fetchTrace (s : State) : Event := .trace s.pc s.instrWord (decode s.cfg.tables s.instrWord)

theorem step_of_exhausted (s : State) (hr : s.status = .running) (he : exhausted s.pc = true) :
    step s = .next (s.halt .exhausted) := by
  simp [step, fetchStage, hr, fetchRunning, he]

theorem step_of_misaligned (s : State) (hr : s.status = .running) (he : exhausted s.pc = false)
    (ho : oddPc s.pc = true) (hp : s.cfg.oddFetch = .fault) : step s = .next (s.raiseFault .misalignedFetch) := by
  simp [step, fetchStage, hr, fetchRunning, he, ho, hp]

theorem step_of_decoded (s : State) (hr : s.status = .running) (he : exhausted s.pc = false)
    (ho : ¬(oddPc s.pc = true ∧ s.cfg.oddFetch = .fault)) (i : Instr)
    (hd : decodeWord s.cfg.tables s.instrWord = .ok i) :
    step s = exec i (s.emit s.fetchTrace) := by
  unfold decodeWord at hd
  simp [step, fetchStage, hr, fetchRunning, he, ho, fetchDecode, hd, State.fetchTrace]

theorem step_of_unimpl (s : State) (hr : s.status = .running) (he : exhausted s.pc = false)
    (ho : ¬(oddPc s.pc = true ∧ s.cfg.oddFetch = .fault)) (r : UnimplReason)
    (hd : decodeWord s.cfg.tables s.instrWord = .error r) :
    step s = .next (s.emit s.fetchTrace).unimplemented := by
  unfold decodeWord at hd
  simp [step, fetchStage, hr, fetchRunning, he, ho, fetchDecode, hd, State.fetchTrace]

/-- Every step of a running state only appends (rules R35, R112). -/
theorem step_appendsOnly (s : State) (hr : s.status = .running) : AppendsOnly step s := by
  by_cases he : exhausted s.pc = true
  · exact ⟨s.halt .exhausted, [], rfl, fun o => by
      simpa using step_of_exhausted (s.withOut o) hr he⟩
  rw [Bool.not_eq_true] at he
  by_cases ho : oddPc s.pc = true ∧ s.cfg.oddFetch = .fault
  · exact ⟨s.raiseFault .misalignedFetch, [], rfl, fun o => by
      simpa using step_of_misaligned (s.withOut o) hr he ho.1 ho.2⟩
  cases hd : decodeWord s.cfg.tables s.instrWord with
  | ok i => exact .of_emit s.fetchTrace (fun o => step_of_decoded (s.withOut o) hr he ho i hd) (exec_appendsOnly i _)
  | error r =>
    exact .of_emit s.fetchTrace (fun o => step_of_unimpl (s.withOut o) hr he ho r hd) (unimplemented_appendsOnly _)

/-- Settles O50: a running state's step only appends, and its own output is one of the streams the step may find. -/
theorem outputOnlyAppendedNeverRead : Obligations.OutputOnlyAppendedNeverRead := by
  unfold Obligations.OutputOnlyAppendedNeverRead
  intro s t h
  obtain ⟨u, es, hc, hf⟩ := step_appendsOnly s (running_of_step s t h)
  have ht : t = u.withOut (s.out ++ es) := by
    have hs := hf s.out
    rw [State.withOut_self, h] at hs
    injection hs
  subst ht
  exact ⟨hc, es, rfl, hf⟩

end Sys2Proof.Machine
end

section
/-! PROOFS. Registers: an instruction leaves every register but its destination (rule R24). -/

namespace Sys2Proof.Machine

@[simp] theorem State.unimplemented_reg (s : State) (r : RegIdx) : s.unimplemented.reg r = s.reg r := by
  rcases s.unimplemented_cases with ⟨-, h⟩ | ⟨-, h⟩ <;> simp [h]

@[simp] theorem printStrService_reg (s : State) (r : RegIdx) : (printStrService s).reg r = s.reg r := by
  rcases printStrService_cases s with ⟨bs, -, h⟩ | ⟨-, h⟩ <;> simp [h]

/-- A write to an instruction's destination leaves the registers that are not its destination. -/
theorem reg_setReg_destReg {i : Instr} {rd : RegIdx} (hd : destReg i = some rd) (s : State) (v : Word) (r : RegIdx)
    (hr : destReg i ≠ some r) : (s.setReg rd v).reg r = s.reg r :=
  State.reg_setReg_other s rd r v fun e => hr (e ▸ hd)

theorem execEcall_reg (svc : BitVec 10) (s : State) :
    ∃ t, execEcall svc s = .next t ∧ ∀ r, t.reg r = s.reg r := by
  rcases execEcall_cases svc s with ⟨-, h⟩ | ⟨-, h⟩ | ⟨-, h⟩ | ⟨-, -, -, h⟩
  · exact ⟨_, h, fun r => by simp [haltService]⟩
  · exact ⟨_, h, fun r => by simp [printIntService]⟩
  · exact ⟨_, h, printStrService_reg s⟩
  · exact ⟨_, h, s.unimplemented_reg⟩

/-- Settles O55, by the shapes of a meaning. -/
theorem onlyDestinationRegisterChanges : Obligations.OnlyDestinationRegisterChanges := by
  unfold Obligations.OnlyDestinationRegisterChanges
  intro i s
  cases execShape i with
  | writes rd v hd _ he => exact ⟨_, he s, fun r hr => by simp [reg_setReg_destReg hd _ _ r hr]⟩
  | loads n get rd base imm hd he =>
    rw [he]
    rcases loadOp_cases n get rd base imm s with ⟨a, -, h⟩ | ⟨-, h⟩
    · exact ⟨_, h, fun r hr => by simp [reg_setReg_destReg hd _ _ r hr]⟩
    · exact ⟨_, h, fun r _ => s.raiseFault_reg _ r⟩
  | stores n put base imm _ he =>
    rw [he]
    rcases storeOp_cases n (put s) base imm s with ⟨a, -, h⟩ | ⟨-, h⟩
    · exact ⟨_, h, fun r _ => by simp⟩
    · exact ⟨_, h, fun r _ => s.raiseFault_reg _ r⟩
  | branches c imm _ _ he => exact ⟨_, he s, fun r _ => by cases c s <;> simp⟩
  | jal rd imm hi => subst hi; exact ⟨_, rfl, fun r hr => by simp [reg_setReg_destReg rfl _ _ r hr]⟩
  | jr rd hi => subst hi; exact ⟨_, rfl, fun r _ => s.setPc_reg _ r⟩
  | jalr rd rs2 hi => subst hi; exact ⟨_, rfl, fun r hr => by simp [reg_setReg_destReg rfl _ _ r hr]⟩
  | ecall svc hi =>
    subst hi
    obtain ⟨t, h, hr⟩ := execEcall_reg svc s
    exact ⟨t, h, fun r _ => hr r⟩

end Sys2Proof.Machine
end

section
/-! PROOFS. Displacements: whatever the tables, the decoder takes them from fields with bit 0 clear (rules R66, R68). -/

namespace Sys2Proof

open Machine

/-- The format whose words spell an operation (rules R71 to R79). -/
def opFormat : Op → Option Format
  | .reg _ => some .regReg
  | .imm _ => some .imm
  | .shift _ => some .imm
  | .branch _ => some .branch
  | .store _ => some .store
  | .load _ => some .load
  | .j => some .jump
  | .jal => some .jump
  | .lui => some .upper
  | .auipc => some .upper
  | .ecall => some .system
  | .unimpl _ => none

/-- A table lookup gives an operation of the table's format, or none. -/
theorem opFormat_opOrUnimpl {ω : Type} {known : ω → Op} {g : Format} (hk : ∀ o, opFormat (known o) = some g)
    (r : UnimplReason) (x : Option ω) : ∀ f ∈ opFormat (opOrUnimpl known r x), g = f := by
  cases x with
  | none => simp [opOrUnimpl, opFormat]
  | some o => simp [opOrUnimpl, hk]

/-- An operation is decoded from words of its own format only. -/
theorem formatOf_of_decodeOp (t : Tables) (w : Word) :
    ∀ f ∈ opFormat (decodeOp t w), formatOf (opcodeField w) = f := by
  unfold decodeOp immWordOp
  cases formatOf (opcodeField w) with
  | regReg | branch | store | load => exact opFormat_opOrUnimpl (fun _ => rfl) _ _
  | imm => dsimp only; split <;> exact opFormat_opOrUnimpl (fun _ => rfl) _ _
  | jump | upper | system => dsimp only; split <;> simp [opFormat]

/-- A field with a 0 bit below it, sign-extended, is even. -/
theorem signExtend_append_zero_even {n : Nat} (x : BitVec n) :
    ((x ++ 0#1 : BitVec (n + 1)).signExtend 16).toNat % 2 = 0 := by
  rw [Nat.mod_two_eq_zero_iff_testBit_zero, BitVec.testBit_toNat, BitVec.getLsbD_signExtend]
  simp [BitVec.getElem_append]

theorem decodeImm_even (t : Tables) (w : Word)
    (hf : formatOf (opcodeField w) = .branch ∨ formatOf (opcodeField w) = .jump) : (decodeImm t w).toNat % 2 = 0 := by
  unfold decodeImm
  rcases hf with hf | hf
  · rw [hf]; exact signExtend_append_zero_even _
  · rw [hf]; exact signExtend_append_zero_even _

/-- The instruction of a record has a displacement only for branches, j and jal, and it is the record's `imm`. -/
theorem displacement_recordInstr (d : Decoded) (i : Instr) (h : recordInstr d = .ok i) (imm : Word)
    (hp : displacement i = some imm) :
    imm = d.imm ∧ (opFormat d.op = some .branch ∨ opFormat d.op = some .jump) := by
  unfold recordInstr at h
  generalize d.op = op at h ⊢
  cases op with
  | branch o => cases h; cases o <;> cases hp <;> exact ⟨rfl, .inl rfl⟩
  | j | jal => cases h; cases hp; exact ⟨rfl, .inr rfl⟩
  | reg o | imm o | shift o | store o | load o => cases h; cases o <;> cases hp
  | lui | auipc | ecall => cases h; cases hp
  | unimpl r => cases h

theorem displacement_even (t : Tables) (w : Word) (i : Instr) (h : decodeWord t w = .ok i) (imm : Word)
    (hp : displacement i = some imm) : imm.toNat % 2 = 0 := by
  obtain ⟨rfl, hf⟩ := displacement_recordInstr _ i h imm hp
  exact decodeImm_even t w (hf.imp (formatOf_of_decodeOp t w _) (formatOf_of_decodeOp t w _))

end Sys2Proof
end

section
/-! PROOFS. The parity of the pc (rules R28, R113): only a register's value can make it odd. -/

namespace Sys2Proof.Machine

/-- A pc-relative move by an even offset, done or halted, keeps an even pc even. -/
theorem State.movePc_even (s : State) (off : Int) (hs : s.pc.toNat % 2 = 0)
    (ho : (BitVec.ofInt 16 off).toNat % 2 = 0) : (s.movePc off).pc.toNat % 2 = 0 := by
  rcases s.movePc_cases off with ⟨-, h⟩ | ⟨-, h⟩
  · rw [h, State.halt_pc]; exact hs
  · rw [h, State.setPc_pc, BitVec.toNat_add]; omega

theorem State.advance_even (s : State) (hs : s.pc.toNat % 2 = 0) : s.advance.pc.toNat % 2 = 0 :=
  s.movePc_even 2 hs rfl

theorem State.unimplemented_even (s : State) (hs : s.pc.toNat % 2 = 0) : s.unimplemented.pc.toNat % 2 = 0 := by
  rcases s.unimplemented_cases with ⟨-, h⟩ | ⟨-, h⟩
  · rw [h]; exact hs
  · rw [h]; exact State.advance_even _ hs

theorem execEcall_even (svc : BitVec 10) (s t : State) (h : execEcall svc s = .next t) (hs : s.pc.toNat % 2 = 0) :
    t.pc.toNat % 2 = 0 := by
  rcases execEcall_cases svc s with ⟨-, he⟩ | ⟨-, he⟩ | ⟨-, he⟩ | ⟨-, -, -, he⟩ <;> rw [he] at h <;> cases h
  · exact hs
  · exact State.advance_even _ hs
  · rcases printStrService_cases s with ⟨bs, -, hp⟩ | ⟨-, hp⟩ <;> rw [hp]
    · exact State.advance_even _ hs
    · exact hs
  · exact s.unimplemented_even hs

/-- An instruction with an even displacement, if it has one, that is not jr or jalr keeps an even pc even. -/
theorem exec_even (i : Instr) (s t : State) (h : exec i s = .next t)
    (hd : ∀ imm, displacement i = some imm → imm.toNat % 2 = 0) (hj : isRegJump i = false)
    (hs : s.pc.toNat % 2 = 0) : t.pc.toNat % 2 = 0 := by
  have moved (u : State) (hu : u.pc = s.pc) (imm : Word) (hp : displacement i = some imm) :
      (u.movePc imm.toInt).pc.toNat % 2 = 0 :=
    u.movePc_even _ (hu ▸ hs) (by rw [BitVec.ofInt_toInt]; exact hd imm hp)
  cases execShape i with
  | writes rd v _ _ he => rw [he] at h; cases h; exact State.advance_even _ hs
  | loads n get rd base imm _ he =>
    rw [he] at h
    rcases loadOp_cases n get rd base imm s with ⟨a, -, hl⟩ | ⟨-, hl⟩ <;> rw [hl] at h <;> cases h
    · exact State.advance_even _ hs
    · exact hs
  | stores n put base imm _ he =>
    rw [he] at h
    rcases storeOp_cases n (put s) base imm s with ⟨a, -, hl⟩ | ⟨-, hl⟩ <;> rw [hl] at h <;> cases h
    · exact State.advance_even _ hs
    · exact hs
  | branches c imm hp _ he =>
    rw [he] at h
    cases h
    split
    · exact moved s rfl imm hp
    · exact s.advance_even hs
  | jal rd imm hi => subst hi; cases h; exact moved (s.setReg rd (linkValue s)) rfl imm rfl
  | jr rd hi => subst hi; cases hj
  | jalr rd rs2 hi => subst hi; cases hj
  | ecall svc hi => subst hi; exact execEcall_even svc s t h hs

/-- Settles O56: a step that executes nothing keeps the pc or moves it by 2, and `exec_even` covers the rest. -/
theorem onlyRegisterJumpsMakePcOdd : Obligations.OnlyRegisterJumpsMakePcOdd := by
  unfold Obligations.OnlyRegisterJumpsMakePcOdd
  intro s t hs h ht
  have odd : t.pc.toNat % 2 ≠ 0 := by omega
  rcases step_cases s t h with ⟨-, rfl⟩ | ⟨-, -, -, rfl⟩ | ⟨-, -, ⟨i, hd, he⟩ | ⟨r, -, rfl⟩⟩
  · exact absurd hs odd
  · exact absurd hs odd
  · refine ⟨s.instrWord, i, (fetchedWord_iff s _).2 rfl, hd, ?_⟩
    by_contra hj
    exact odd (exec_even i _ t he (displacement_even _ _ i hd) (by simpa using hj) hs)
  · exact absurd (State.unimplemented_even (s.emit _) hs) odd

end Sys2Proof.Machine
end

section
/-! PROOFS. The memory a run starts with (rules R36, R222). -/

namespace Sys2Proof.Machine

/-- A launch is the reset state with the image loaded and the parameters set, and the image fits the memory. -/
theorem launch_eq_some {c : Config} {image : List Byte} {s : State} (h : launch c image = some s) :
    image.length ≤ 65536 ∧ s = { State.reset with mem := Memory.load [] 0 image, cfg := c } := by
  unfold launch at h
  split at h
  · next hl => cases h; exact ⟨hl, rfl⟩
  · cases h

/-- Settles O48: the empty memory is canonical, and loading an image that fits keeps it so. -/
theorem resetMemoryCanonical : Obligations.ResetMemoryCanonical := by
  unfold Obligations.ResetMemoryCanonical
  refine ⟨rfl, fun c image s h => ?_⟩
  obtain ⟨hl, rfl⟩ := launch_eq_some h
  exact Memory.wf_load image [] 0 rfl (by omega)

end Sys2Proof.Machine
end

section
/-! PROOFS. What memory reads as after a write (rules R41, R51). -/

namespace Sys2Proof.Machine

/-- A word read is `mem[a] + 256 * mem[a+1]` (rules R41, R42). -/
theorem Memory.readWord_toNat (m : Memory) (a : Nat) :
    (m.readWord a).toNat = (m.read a).toNat + 256 * (m.read (a + 1)).toNat :=
  ofBytes_toNat _ _

/-- A word read where a word was written is the word written. -/
theorem Memory.readWord_writeWord_self (m : Memory) (a : Nat) (v : Word) (h : m.wf = true) (ha : a < 65536) :
    (m.writeWord a v).readWord a = v := by
  apply BitVec.eq_of_toNat_eq
  rw [Memory.readWord_toNat, Memory.read_writeWord m a a v h ha, Memory.read_writeWord m a (a + 1) v h ha,
    if_neg (by omega), if_pos rfl, if_pos rfl, loByte_toNat, hiByte_toNat]
  omega

/-- Settles O46: the laws of the memory, their bytes read as numbers. -/
theorem memoryReadsAfterWrites : Obligations.MemoryReadsAfterWrites := by
  unfold Obligations.MemoryReadsAfterWrites
  refine ⟨fun m a b v h _ => ?_, fun m a b v h ha => ?_, Memory.readWord_toNat⟩
  · rw [Memory.read_write m a b _ h, apply_ite BitVec.toNat, loByte_toNat]
  · rw [Memory.read_writeWord m a b v h (by omega)]
    by_cases hlo : b = a
    · rw [if_neg (by omega), if_pos hlo, if_pos hlo, loByte_toNat]
    · rw [if_neg hlo, if_neg hlo, apply_ite BitVec.toNat, hiByte_toNat]

end Sys2Proof.Machine
end

section
/-! PROOFS. Who writes memory (rules R40, R48): the stores alone, and a store keeps the canonical form. -/

namespace Sys2Proof.Machine

@[simp] theorem State.unimplemented_mem (s : State) : s.unimplemented.mem = s.mem := by
  rcases s.unimplemented_cases with ⟨-, h⟩ | ⟨-, h⟩ <;> simp [h]

@[simp] theorem printStrService_mem (s : State) : (printStrService s).mem = s.mem := by
  rcases printStrService_cases s with ⟨bs, -, h⟩ | ⟨-, h⟩ <;> simp [h]

theorem loadOp_mem {n : Nat} {get : Memory → Nat → Word} {rd base : RegIdx} {imm : Word} {s t : State}
    (h : loadOp n get rd base imm s = .next t) : t.mem = s.mem := by
  rcases loadOp_cases n get rd base imm s with ⟨a, -, hl⟩ | ⟨-, hl⟩ <;> rw [hl] at h <;> cases h
  · exact State.movePc_mem _ _
  · rfl

theorem branchIf_mem {c : Bool} {imm : Word} {s t : State} (h : branchIf c imm s = .next t) : t.mem = s.mem := by
  cases h
  cases c with
  | true => exact s.movePc_mem _
  | false => exact s.movePc_mem _

/-- No service writes memory (rule R190). -/
theorem execEcall_mem {svc : BitVec 10} {s t : State} (h : execEcall svc s = .next t) : t.mem = s.mem := by
  rcases execEcall_cases svc s with ⟨-, he⟩ | ⟨-, he⟩ | ⟨-, he⟩ | ⟨-, -, -, he⟩ <;> rw [he] at h <;> cases h
  · rfl
  · exact State.movePc_mem _ _
  · exact printStrService_mem s
  · exact s.unimplemented_mem

/-- An instruction that is no store leaves memory as it is (rule R48). -/
theorem exec_mem_of_not_store {i : Instr} {s t : State} (hi : isStore i = false) (h : exec i s = .next t) :
    t.mem = s.mem := by
  cases i with
  | sb | sw => cases hi
  | lb | lw | lbu => simp only [exec, execLb, execLw, execLbu] at h; exact loadOp_mem h
  | beq | bne | bz | bnz | blt | bge | bltu | bgeu => exact branchIf_mem h
  | ecall svc => exact execEcall_mem h
  | jr | jalr => cases h; rfl
  | _ => cases h; exact State.movePc_mem _ _

/-- A store whose memory operation keeps the canonical form at every admitted address keeps it. -/
theorem storeOp_wf {n : Nat} {put : Memory → Nat → Memory} {base : RegIdx} {imm : Word} {s t : State}
    (hs : StateInv s) (hput : ∀ a, accessAddress s base imm n = some a → (put s.mem a).wf = true)
    (h : storeOp n put base imm s = .next t) : StateInv t := by
  rcases storeOp_cases n put base imm s with ⟨a, ha, hl⟩ | ⟨-, hl⟩ <;> rw [hl] at h <;> cases h
  · rw [StateInv, State.advance_eq, State.movePc_mem]
    exact hput a ha
  · exact hs

/-- Every instruction keeps the canonical form: the bounds check of rule R44 admits no address outside memory. -/
theorem exec_wf {i : Instr} {s t : State} (hs : StateInv s) (h : exec i s = .next t) : StateInv t := by
  cases i with
  | sb src base imm =>
    rw [exec, execSb] at h
    refine storeOp_wf hs (fun a ha => Memory.wf_write s.mem a _ hs ?_) h
    have := accessAddress_lt s base imm 1 a ha (by decide)
    omega
  | sw src base imm =>
    rw [exec, execSw] at h
    refine storeOp_wf hs (fun a ha => Memory.wf_writeWord s.mem a _ hs ?_) h
    have := accessAddress_lt s base imm 2 a ha (by decide)
    omega
  | _ =>
    rw [StateInv, exec_mem_of_not_store rfl h]
    exact hs

/-- A step leaves memory as it is, or is the execution of the fetched instruction in a state with the same memory. -/
theorem step_mem_cases {s t : State} (h : step s = .next t) :
    t.mem = s.mem ∨ ∃ i u, decodeWord s.cfg.tables s.instrWord = .ok i ∧ u.mem = s.mem ∧ exec i u = .next t := by
  rcases step_cases s t h with ⟨-, rfl⟩ | ⟨-, -, -, rfl⟩ | ⟨-, -, ⟨i, hd, he⟩ | ⟨r, -, rfl⟩⟩
  · exact .inl rfl
  · exact .inl rfl
  · exact .inr ⟨i, s.emit _, hd, rfl, he⟩
  · exact .inl (State.unimplemented_mem _)

/-- Settles O47: the step changes memory by its instruction alone, and `exec_wf` covers every instruction. -/
theorem memoryStaysCanonical : Obligations.MemoryStaysCanonical := by
  unfold Obligations.MemoryStaysCanonical
  intro s t hs h
  rcases step_mem_cases h with hm | ⟨i, u, -, hu, he⟩
  · rw [StateInv, hm]; exact hs
  · exact exec_wf (by rw [StateInv, hu]; exact hs) he

/-- Settles O54: a step that changes memory executed its instruction, and that is no instruction but a store. -/
theorem onlyStoresWriteMemory : Obligations.OnlyStoresWriteMemory := by
  unfold Obligations.OnlyStoresWriteMemory
  intro s t a h hne
  rcases step_mem_cases h with hm | ⟨i, u, hd, hu, he⟩
  · exact absurd (by rw [hm]) hne
  · refine ⟨s.instrWord, i, (fetchedWord_iff s _).2 rfl, hd, ?_⟩
    by_contra hi
    exact hne (by rw [exec_mem_of_not_store (by simpa using hi) he, hu])

end Sys2Proof.Machine
end

section
/-! PROOFS. A store over the next instruction (rules R53, R225). -/

namespace Sys2Proof.Machine

/-- The bounds check admits an effective address whose access ends below 65536 (rule R44). -/
theorem accessAddress_of_eaInt {s : State} {base : RegIdx} {imm : Word} {n a : Nat} (he : eaInt s base imm = a)
    (ha : a + n - 1 < 65536) : accessAddress s base imm n = some a := by
  change boundsCheck (eaInt s base imm) n = some a
  rw [he, boundsCheck, if_pos (by omega), Int.toNat_natCast]

/-- Below the end of the address space the next pc is pc + 2, whatever `PC_OVERFLOW` says (rules R106, R108). -/
theorem State.advance_of_lt {s : State} (h : s.pc.toNat + 2 < 65536) : s.advance = s.setPc (s.pc + 2) := by
  rcases s.movePc_cases 2 with ⟨ho, -⟩ | ⟨-, hm⟩
  · exact absurd (by unfold State.exactPc; omega) ho.2
  · exact hm

/-- A word store whose effective address is in bounds completes: the word is written, and nothing else but the pc
changes (rule R172). -/
theorem exec_sw_of_eaInt {s : State} {src base : RegIdx} {imm : Word} {a : Nat} (he : eaInt s base imm = a)
    (ha : a + 1 < 65536) :
    exec (.sw src base imm) s = .next (s.setMem (s.mem.writeWord a (s.reg src))).advance := by
  simp only [exec, execSw, storeOp, accessAddress_of_eaInt he (show a + 2 - 1 < 65536 from ha)]

/-- Settles O57: the store writes the word where the next pc points, and a word read there gives it back. -/
theorem storeSeenByNextFetch : Obligations.StoreSeenByNextFetch := by
  unfold Obligations.StoreSeenByNextFetch
  intro s src base imm hs hpc hea
  have hnext : (s.pc + 2).toNat = s.pc.toNat + 2 := by
    rw [BitVec.toNat_add]
    exact Nat.mod_eq_of_lt (show s.pc.toNat + 2 < 65536 by omega)
  refine ⟨_, exec_sw_of_eaInt (a := s.pc.toNat + 2) hea (by omega), ?_⟩
  rw [State.advance_of_lt (by rw [State.setMem_pc]; omega)]
  refine ⟨hnext, rfl, (fetchedWord_iff _ _).2 ?_⟩
  rw [State.instrWord, State.setPc_pc, State.setMem_pc, hnext]
  exact (Memory.readWord_writeWord_self s.mem _ _ hs (by omega)).symm

end Sys2Proof.Machine
end

section
/-! PROOFS. Words by their fields (rule R60): every format is imm7, rd_rs1, funct3 and opcode, from the top; rs2,
funct4, the shift mode and amount, link and imm_hi are slices of imm7. -/

namespace Sys2Proof

open BitVec

/-- The word with these fields. -/
def wordOf (imm7 : BitVec 7) (rd : RegIdx) (funct3 opcode : BitVec 3) : Word := imm7 ++ rd ++ funct3 ++ opcode

/-- A word is the word of its own fields. -/
theorem wordOf_fields (w : Word) : wordOf (imm7Field w) (rdField w) (funct3Field w) (opcodeField w) = w := by
  unfold wordOf imm7Field rdField funct3Field opcodeField
  rw [extractLsb'_append_extractLsb'_eq_extractLsb' (by rfl), extractLsb'_append_extractLsb'_eq_extractLsb' (by rfl),
    extractLsb'_append_extractLsb'_eq_extractLsb' (by rfl)]
  exact extractLsb'_eq_self

section
variable (x : BitVec 7) (rd : RegIdx) (f o : BitVec 3)

@[simp] theorem opcodeField_wordOf : opcodeField (wordOf x rd f o) = o := extractLsb'_append_eq_right

@[simp] theorem funct3Field_wordOf : funct3Field (wordOf x rd f o) = f :=
  (extractLsb'_append_eq_of_le (by decide)).trans extractLsb'_append_eq_right

@[simp] theorem rdField_wordOf : rdField (wordOf x rd f o) = rd :=
  (extractLsb'_append_eq_of_le (by decide)).trans <|
    (extractLsb'_append_eq_of_le (by decide)).trans extractLsb'_append_eq_right

/-- The bits of a word from bit 9 on are those of its imm7. -/
theorem extract_wordOf {lo n : Nat} (h : 9 ≤ lo) : (wordOf x rd f o).extractLsb' lo n = x.extractLsb' (lo - 9) n := by
  unfold wordOf
  rw [extractLsb'_append_eq_of_le (by omega), extractLsb'_append_eq_of_le (by omega),
    extractLsb'_append_eq_of_le (by omega)]
  congr 1

@[simp] theorem imm7Field_wordOf : imm7Field (wordOf x rd f o) = x :=
  (extract_wordOf x rd f o (by decide)).trans extractLsb'_eq_self
theorem rs2Field_wordOf : rs2Field (wordOf x rd f o) = x.extractLsb' 0 3 := extract_wordOf x rd f o (by decide)
theorem shamtField_wordOf : shamtField (wordOf x rd f o) = x.extractLsb' 0 4 := extract_wordOf x rd f o (by decide)
theorem immHiField_wordOf : immHiField (wordOf x rd f o) = x.extractLsb' 0 6 := extract_wordOf x rd f o (by decide)
theorem funct4Field_wordOf : funct4Field (wordOf x rd f o) = x.extractLsb' 3 4 := extract_wordOf x rd f o (by decide)
theorem modeField_wordOf : modeField (wordOf x rd f o) = x.extractLsb' 4 3 := extract_wordOf x rd f o (by decide)
theorem linkField_wordOf : linkField (wordOf x rd f o) = x.extractLsb' 6 1 := extract_wordOf x rd f o (by decide)

end

section
variable (rd : RegIdx) (f o : BitVec 3)

@[simp] theorem funct4Field_append (x : BitVec 4) (y : RegIdx) : funct4Field (wordOf (x ++ y) rd f o) = x :=
  (funct4Field_wordOf ..).trans extractLsb'_append_eq_left
@[simp] theorem rs2Field_append (x : BitVec 4) (y : RegIdx) : rs2Field (wordOf (x ++ y) rd f o) = y :=
  (rs2Field_wordOf ..).trans extractLsb'_append_eq_right
@[simp] theorem modeField_append (x : BitVec 3) (y : BitVec 4) : modeField (wordOf (x ++ y) rd f o) = x :=
  (modeField_wordOf ..).trans extractLsb'_append_eq_left
@[simp] theorem shamtField_append (x : BitVec 3) (y : BitVec 4) : shamtField (wordOf (x ++ y) rd f o) = y :=
  (shamtField_wordOf ..).trans extractLsb'_append_eq_right
@[simp] theorem linkField_append (x : BitVec 1) (y : BitVec 6) : linkField (wordOf (x ++ y) rd f o) = x :=
  (linkField_wordOf ..).trans extractLsb'_append_eq_left
@[simp] theorem immHiField_append (x : BitVec 1) (y : BitVec 6) : immHiField (wordOf (x ++ y) rd f o) = y :=
  (immHiField_wordOf ..).trans extractLsb'_append_eq_right

end

theorem funct4_append_rs2 (w : Word) : funct4Field w ++ rs2Field w = imm7Field w :=
  extractLsb'_append_extractLsb'_eq_extractLsb' rfl
theorem mode_append_shamt (w : Word) : modeField w ++ shamtField w = imm7Field w :=
  extractLsb'_append_extractLsb'_eq_extractLsb' rfl
theorem link_append_immHi (w : Word) : linkField w ++ immHiField w = imm7Field w :=
  extractLsb'_append_extractLsb'_eq_extractLsb' rfl
theorem svcField_eq (w : Word) : svcField w = imm7Field w ++ rdField w := by
  unfold svcField imm7Field rdField
  rw [extractLsb'_append_extractLsb'_eq_extractLsb' (by rfl)]

theorem wordOf_and (x y : BitVec 7) (rd rd' : RegIdx) (f f' o o' : BitVec 3) :
    wordOf x rd f o &&& wordOf y rd' f' o' = wordOf (x &&& y) (rd &&& rd') (f &&& f') (o &&& o') := by
  exact and_append.trans (congrArg (· ++ _) (and_append.trans (congrArg (· ++ _) and_append)))

theorem wordOf_or (x y : BitVec 7) (rd rd' : RegIdx) (f f' o o' : BitVec 3) :
    wordOf x rd f o ||| wordOf y rd' f' o' = wordOf (x ||| y) (rd ||| rd') (f ||| f') (o ||| o') := by
  exact or_append.trans (congrArg (· ++ _) (or_append.trans (congrArg (· ++ _) or_append)))

theorem packReg_eq (code : BitVec 4 × BitVec 3) (rs2 rd : RegIdx) :
    packReg code rs2 rd = wordOf (code.1 ++ rs2) rd code.2 0 := rfl
theorem packImm_eq (f : BitVec 3) (rd : RegIdx) (imm : Word) :
    packImm f rd imm = wordOf (imm.extractLsb' 0 7) rd f 1 := rfl
theorem packShift_eq (mode : BitVec 3) (rd : RegIdx) (shamt : BitVec 4) :
    packShift mode rd shamt = wordOf (mode ++ shamt) rd 3 1 := rfl
theorem packBranch_eq (f : BitVec 3) (rs1 rs2 : RegIdx) (imm : Word) :
    packBranch f rs1 rs2 imm = wordOf (imm.extractLsb' 1 4 ++ rs2) rs1 f 2 := rfl
theorem packStore_eq (f : BitVec 3) (src base : RegIdx) (imm : Word) :
    packStore f src base imm = wordOf (imm.extractLsb' 0 4 ++ base) src f 3 := rfl
theorem packLoad_eq (f : BitVec 3) (rd base : RegIdx) (imm : Word) :
    packLoad f rd base imm = wordOf (imm.extractLsb' 0 4 ++ base) rd f 4 := rfl
theorem packJump_eq (link : BitVec 1) (rd : RegIdx) (imm : Word) :
    packJump link rd imm = wordOf (link ++ imm.extractLsb' 4 6) rd (imm.extractLsb' 1 3) 5 := rfl
theorem packUpper_eq (link : BitVec 1) (rd : RegIdx) (imm : Word) :
    packUpper link rd imm = wordOf (link ++ imm.extractLsb' 10 6) rd (imm.extractLsb' 7 3) 6 := rfl
theorem packSystem_eq (svc : BitVec 10) :
    packSystem svc = wordOf (svc.extractLsb' 3 7) (svc.extractLsb' 0 3) 0 7 := by
  unfold packSystem wordOf
  rw [extractLsb'_append_extractLsb'_eq_extractLsb' (by rfl), extractLsb'_eq_self]
  rfl

end Sys2Proof
end

section
/-! PROOFS. What the decoder outputs, said once: the format by the low three bits, the operation by the fields that
select it, the immediate by the format (rules R61, R71 to R79). -/

namespace Sys2Proof

/-! ## Formats -/

theorem formatOf_eq_iff {o : BitVec 3} {f : Format} : formatOf o = f ↔ o = formatOpcode f :=
  ⟨fun h => by rw [← h, formatOpcode_formatOf], fun h => by rw [h, formatOf_formatOpcode]⟩

/-- The format as the statements say it, by the low three bits of the word as a number (rule R61). -/
theorem formatOf_iff_mod {w : Word} {f : Format} :
    formatOf (opcodeField w) = f ↔ w.toNat % 8 = (formatOpcode f).toNat := by
  have h : (opcodeField w).toNat = w.toNat % 8 := (extract_toNat w 0 3).trans (by rw [pow_zero, Nat.div_one]; rfl)
  rw [formatOf_eq_iff, ← BitVec.toNat_inj, h]

/-- The value of funct3 as a number (rule R60). -/
theorem funct3Field_eq_iff {w : Word} {f : BitVec 3} : funct3Field w = f ↔ w.toNat / 8 % 8 = f.toNat := by
  rw [← BitVec.toNat_inj, funct3Field, extract_toNat]
  rfl

/-! ## Operations -/

/-- How a word comes to spell an operation: its format, and the codes in its fields (rules R71 to R80). -/
def SelectedBy (t : Tables) (w : Word) : Op → Prop
  | .reg o => formatOf (opcodeField w) = .regReg ∧ t.rFunct.op (funct4Field w, funct3Field w) = some o
  | .imm o => formatOf (opcodeField w) = .imm ∧ funct3Field w ≠ 3 ∧ t.iFunct3.op (funct3Field w) = some o
  | .shift o => formatOf (opcodeField w) = .imm ∧ funct3Field w = 3 ∧ t.shiftMode.op (modeField w) = some o
  | .branch o => formatOf (opcodeField w) = .branch ∧ t.bFunct3.op (funct3Field w) = some o
  | .store o => formatOf (opcodeField w) = .store ∧ t.sFunct3.op (funct3Field w) = some o
  | .load o => formatOf (opcodeField w) = .load ∧ t.lFunct3.op (funct3Field w) = some o
  | .j => formatOf (opcodeField w) = .jump ∧ linkField w = 0
  | .jal => formatOf (opcodeField w) = .jump ∧ linkField w = 1
  | .lui => formatOf (opcodeField w) = .upper ∧ linkField w = 0
  | .auipc => formatOf (opcodeField w) = .upper ∧ linkField w = 1
  | .ecall => formatOf (opcodeField w) = .system ∧ funct3Field w = 0
  | .unimpl .badFunct =>
    (formatOf (opcodeField w) = .regReg ∧ t.rFunct.op (funct4Field w, funct3Field w) = none) ∨
    (formatOf (opcodeField w) = .imm ∧ funct3Field w ≠ 3 ∧ t.iFunct3.op (funct3Field w) = none) ∨
    (formatOf (opcodeField w) = .branch ∧ t.bFunct3.op (funct3Field w) = none) ∨
    (formatOf (opcodeField w) = .store ∧ t.sFunct3.op (funct3Field w) = none) ∨
    (formatOf (opcodeField w) = .load ∧ t.lFunct3.op (funct3Field w) = none)
  | .unimpl .badShiftMode =>
    formatOf (opcodeField w) = .imm ∧ funct3Field w = 3 ∧ t.shiftMode.op (modeField w) = none
  | .unimpl .sysReserved => formatOf (opcodeField w) = .system ∧ funct3Field w ≠ 0

theorem opOrUnimpl_cases {ω : Type} {known : ω → Op} {r : UnimplReason} {x : Option ω} {P : Op → Prop}
    (hs : ∀ o, x = some o → P (known o)) (hn : x = none → P (.unimpl r)) : P (opOrUnimpl known r x) := by
  cases x with
  | none => exact hn rfl
  | some o => exact hs o rfl

/-- The decoder's operation is the one the word's fields select. -/
theorem selectedBy_decodeOp (t : Tables) (w : Word) : SelectedBy t w (decodeOp t w) := by
  have link_zero {l : BitVec 1} (h : l ≠ 1) : l = 0 := by revert l; decide
  unfold decodeOp
  cases hf : formatOf (opcodeField w) with
  | regReg => exact opOrUnimpl_cases (fun o ho => ⟨hf, ho⟩) (fun hn => .inl ⟨hf, hn⟩)
  | imm =>
    dsimp only [immWordOp]
    split
    next h3 => exact opOrUnimpl_cases (fun o ho => ⟨hf, h3, ho⟩) (fun hn => ⟨hf, h3, hn⟩)
    next h3 => exact opOrUnimpl_cases (fun o ho => ⟨hf, h3, ho⟩) (fun hn => .inr (.inl ⟨hf, h3, hn⟩))
  | branch => exact opOrUnimpl_cases (fun o ho => ⟨hf, ho⟩) (fun hn => .inr (.inr (.inl ⟨hf, hn⟩)))
  | store => exact opOrUnimpl_cases (fun o ho => ⟨hf, ho⟩) (fun hn => .inr (.inr (.inr (.inl ⟨hf, hn⟩))))
  | load => exact opOrUnimpl_cases (fun o ho => ⟨hf, ho⟩) (fun hn => .inr (.inr (.inr (.inr ⟨hf, hn⟩))))
  | jump | upper =>
    dsimp only
    split
    next hl => exact ⟨hf, hl⟩
    next hl => exact ⟨hf, link_zero hl⟩
  | system =>
    dsimp only
    split
    next h0 => exact ⟨hf, h0⟩
    next h0 => exact ⟨hf, h0⟩

/-- The fields of a word select one operation, the decoder's. -/
theorem decodeOp_eq_iff {t : Tables} {w : Word} {op : Op} : decodeOp t w = op ↔ SelectedBy t w op := by
  refine ⟨fun h => h ▸ selectedBy_decodeOp t w, fun h => ?_⟩
  cases op with
  | reg o | branch o | store o | load o =>
    obtain ⟨hf, ho⟩ := h
    simp only [decodeOp, hf, ho, opOrUnimpl]
  | imm o =>
    obtain ⟨hf, h3, ho⟩ := h
    simp only [decodeOp, immWordOp, hf, if_neg h3, ho, opOrUnimpl]
  | shift o =>
    obtain ⟨hf, h3, ho⟩ := h
    simp only [decodeOp, immWordOp, hf, if_pos h3, ho, opOrUnimpl]
  | j | jal | lui | auipc | ecall =>
    obtain ⟨hf, hb⟩ := h
    simp [decodeOp, hf, hb]
  | unimpl r =>
    cases r with
    | badFunct =>
      rcases h with ⟨hf, hn⟩ | ⟨hf, h3, hn⟩ | ⟨hf, hn⟩ | ⟨hf, hn⟩ | ⟨hf, hn⟩
      case inr.inl => simp only [decodeOp, immWordOp, hf, if_neg h3, hn, opOrUnimpl]
      all_goals simp only [decodeOp, hf, hn, opOrUnimpl]
    | badShiftMode =>
      obtain ⟨hf, h3, hn⟩ := h
      simp only [decodeOp, immWordOp, hf, if_pos h3, hn, opOrUnimpl]
    | sysReserved =>
      obtain ⟨hf, h0⟩ := h
      simp only [decodeOp, hf, if_neg h0]

/-- The instruction of a word, by the operation its fields select. -/
theorem decodeWord_of_selectedBy {t : Tables} {w : Word} {op : Op} (h : SelectedBy t w op) :
    decodeWord t w = recordInstr { decode t w with op := op } := by
  rw [← decodeOp_eq_iff.2 h]
  rfl

/-! ## Immediates (rule R79) -/

section
variable {t : Tables} {w : Word}

theorem decodeImm_of_regReg (h : formatOf (opcodeField w) = .regReg) : decodeImm t w = 0 := by rw [decodeImm, h]
theorem decodeImm_of_branch (h : formatOf (opcodeField w) = .branch) : decodeImm t w = branchImm w := by
  rw [decodeImm, h]
theorem decodeImm_of_store (h : formatOf (opcodeField w) = .store) : decodeImm t w = offsetImm w := by rw [decodeImm, h]
theorem decodeImm_of_load (h : formatOf (opcodeField w) = .load) : decodeImm t w = offsetImm w := by rw [decodeImm, h]
theorem decodeImm_of_jump (h : formatOf (opcodeField w) = .jump) : decodeImm t w = jumpImm w := by rw [decodeImm, h]
theorem decodeImm_of_upper (h : formatOf (opcodeField w) = .upper) : decodeImm t w = upperImm w := by rw [decodeImm, h]
theorem decodeImm_of_system (h : formatOf (opcodeField w) = .system) : decodeImm t w = 0 := by rw [decodeImm, h]

theorem decodeImm_of_imm (h : formatOf (opcodeField w) = .imm) : decodeImm t w = immWordImm t w := by rw [decodeImm, h]

/-- The immediate of an Imm operation outside the shift group. -/
theorem decodeImm_of_immOp {o : ImmOp} (h : SelectedBy t w (.imm o)) :
    decodeImm t w = if o = .sltui then immUnsigned w else immSigned w := by
  obtain ⟨hf, h3, ho⟩ := h
  rw [decodeImm_of_imm hf, immWordImm, if_neg h3, ho]
  simp only [Option.some_inj]

end

/-! ## The first statements: formats, fields and immediates of every word -/

/-- Settles O2: the low three bits are the opcode, and the opcode is the format's. -/
theorem opcodeSelectsFormat : Obligations.OpcodeSelectsFormat := by
  unfold Obligations.OpcodeSelectsFormat
  intro t w
  have fmt (f : Format) (h : w.toNat % 8 = (formatOpcode f).toNat) : (decode t w).fmt = f := formatOf_iff_mod.2 h
  exact ⟨fmt .regReg, fmt .imm, fmt .branch, fmt .store, fmt .load, fmt .jump, fmt .upper, fmt .system⟩

/-- Settles O3: each output is a slice of the word, and a slice that reaches bit 15 needs no remainder. -/
theorem decoderOutputsFields : Obligations.DecoderOutputsFields := by
  unfold Obligations.DecoderOutputsFields
  intro t w
  have hw := w.isLt
  refine ⟨rfl, extract_toNat w 6 3, extract_toNat w 9 3, extract_toNat w 3 3, funct4Field_toNat w,
    extract_toNat w 9 4, (extract_toNat w 15 1).trans ?_, (extract_toNat w 6 10).trans ?_⟩
  · exact Nat.mod_eq_of_lt (by omega)
  · exact Nat.mod_eq_of_lt (by omega)

/-- The sltui immediate (rule R64). -/
theorem immUnsigned_eq (w : Word) : immUnsigned w = BitVec.ofNat 16 (imm7Nat w) := by
  rw [immUnsigned, ← imm7Field_toNat]
  exact (BitVec.ofNat_toNat 16 _).symm

/-- Under the default tables funct3 = 2 is sltui's code, and no other is (decision D2). -/
theorem default_op_eq_sltui_iff (f : BitVec 3) : defaultTables.iFunct3.op f = some .sltui ↔ f = 2 := by
  revert f; decide

/-- Settles O4: by format, the decoder's immediate is the bridge lemma's value. -/
theorem immediatesAssembled : Obligations.ImmediatesAssembled := by
  unfold Obligations.ImmediatesAssembled
  refine ⟨fun t w => ⟨fun h => ?_, fun h => ?_, fun h => ?_, fun h => ?_, fun h => ?_, fun h => ?_, fun h => ?_⟩,
    fun w h => ?_⟩
  · exact decodeImm_of_regReg (formatOf_iff_mod.2 h)
  · exact (decodeImm_of_branch (formatOf_iff_mod.2 h)).trans (branchImm_eq w)
  · exact (decodeImm_of_store (formatOf_iff_mod.2 h)).trans (offsetImm_eq w)
  · exact (decodeImm_of_load (formatOf_iff_mod.2 h)).trans (offsetImm_eq w)
  · exact (decodeImm_of_jump (formatOf_iff_mod.2 h)).trans (jumpImm_eq w)
  · exact (decodeImm_of_upper (formatOf_iff_mod.2 h)).trans (upperImm_eq w)
  · exact decodeImm_of_system (formatOf_iff_mod.2 h)
  · rw [decode_imm, decodeImm_of_imm (formatOf_iff_mod.2 h), immWordImm]
    exact if_congr funct3Field_eq_iff rfl
      (if_congr ((default_op_eq_sltui_iff _).trans funct3Field_eq_iff) (immUnsigned_eq w) (immSigned_eq w))

end Sys2Proof
end

section
/-! PROOFS. The immediates' ranges (rule R88): what a field gives is in its format's range and step, and a value in the
range is given back by the field that holds it. -/

namespace Sys2Proof

open BitVec

/-! ## From a field to the range -/

/-- The signed range of a sign-extended n-bit field. -/
theorem signExtend_range {n : Nat} (x : BitVec n) (h : n ≤ 16) :
    -2 ^ (n - 1) ≤ (x.signExtend 16).toInt ∧ (x.signExtend 16).toInt < 2 ^ (n - 1) := by
  rw [toInt_signExtend_of_le h]
  exact ⟨le_toInt x, toInt_lt⟩

theorem toInt_emod_two (w : Word) : w.toInt % 2 = w.toNat % 2 := by
  rw [toInt_eq_toNat_cond]
  split <;> omega

theorem immSigned_ok (w : Word) : immOk (immSigned w) = true := by
  have := signExtend_range (imm7Field w) (by decide)
  unfold immOk immSigned
  exact decide_eq_true (by omega)

theorem immUnsigned_ok (w : Word) : uimmOk (immUnsigned w) = true := by
  have h : (immUnsigned w).toNat = (imm7Field w).toNat := toNat_setWidth_of_le (by decide)
  have := (imm7Field w).isLt
  exact decide_eq_true (by omega)

theorem offsetImm_ok (w : Word) : offsetOk (offsetImm w) = true := by
  have := signExtend_range (funct4Field w) (by decide)
  unfold offsetOk offsetImm
  exact decide_eq_true (by omega)

theorem branchImm_ok (w : Word) : branchOk (branchImm w) = true := by
  have hr := signExtend_range (funct4Field w ++ 0#1 : BitVec 5) (by decide)
  have he := signExtend_append_zero_even (funct4Field w)
  have hp := toInt_emod_two (branchImm w)
  unfold branchOk
  unfold branchImm at *
  exact decide_eq_true (by omega)

theorem jumpImm_ok (w : Word) : jumpOk (jumpImm w) = true := by
  have hr := signExtend_range (immHiField w ++ funct3Field w ++ 0#1 : BitVec 10) (by decide)
  have he := signExtend_append_zero_even (immHiField w ++ funct3Field w)
  have hp := toInt_emod_two (jumpImm w)
  unfold jumpOk
  unfold jumpImm at *
  exact decide_eq_true (by omega)

/-- The low n bits of an append whose lower part is n zeros. -/
theorem append_zero_mod {m n : Nat} (x : BitVec m) : (x ++ 0#n).toNat % 2 ^ n = 0 := by
  rw [toNat_append, toNat_zero, Nat.or_zero, Nat.shiftLeft_eq, Nat.mul_mod_left]

theorem upperImm_ok (w : Word) : upperOk (upperImm w) = true := decide_eq_true (append_zero_mod (n := 7) _)

/-! ## From the range back -/

/-- A value in the signed range of n + 1 bits is the sign extension of its low n + 1 bits. -/
theorem signExtend_extract_of_range (n : Nat) (v : Word) (hn : n + 1 ≤ 16) (hl : -2 ^ n ≤ v.toInt)
    (hu : v.toInt < 2 ^ n) : (v.extractLsb' 0 (n + 1)).signExtend 16 = v := by
  have hp : ((2 ^ (n + 1) : Nat) : Int) = 2 ^ n * 2 := by push_cast; exact pow_succ 2 n
  apply eq_of_toInt_eq
  rw [toInt_signExtend_of_le hn, ← setWidth_eq_extractLsb' hn, ← signExtend_eq_setWidth_of_le v hn,
    toInt_signExtend_eq_toInt_bmod_of_le v hn]
  exact Int.bmod_eq_of_le_mul_two (by omega) (by omega)

/-- The bits below a multiple of 2^k are zeros. -/
theorem extract_append_zero {n : Nat} (v : Word) (k : Nat) (h : v.toNat % 2 ^ k = 0) :
    v.extractLsb' k n ++ 0#k = v.extractLsb' 0 (n + k) := by
  have hz : v.extractLsb' 0 k = 0#k := by
    apply eq_of_toNat_eq
    rw [extract_toNat, pow_zero, Nat.div_one, h, toNat_zero]
  rw [← hz, extractLsb'_append_extractLsb'_eq_extractLsb' (Nat.zero_add k).symm]

theorem immSigned_wordOf {imm : Word} (h : immOk imm = true) (rd : RegIdx) (f o : BitVec 3) :
    immSigned (wordOf (imm.extractLsb' 0 7) rd f o) = imm := by
  obtain ⟨hl, hu⟩ := of_decide_eq_true h
  rw [immSigned, imm7Field_wordOf]
  exact signExtend_extract_of_range 6 imm (by decide) hl (Int.lt_add_one_of_le hu)

theorem immUnsigned_wordOf {imm : Word} (h : uimmOk imm = true) (rd : RegIdx) (f o : BitVec 3) :
    immUnsigned (wordOf (imm.extractLsb' 0 7) rd f o) = imm := by
  have hi := of_decide_eq_true h
  apply eq_of_toNat_eq
  rw [immUnsigned, imm7Field_wordOf]
  refine (toNat_setWidth_of_le (by decide)).trans ?_
  rw [extract_toNat]
  omega

theorem offsetImm_wordOf {imm : Word} (h : offsetOk imm = true) (rs2 rd : RegIdx) (f o : BitVec 3) :
    offsetImm (wordOf (imm.extractLsb' 0 4 ++ rs2) rd f o) = imm := by
  obtain ⟨hl, hu⟩ := of_decide_eq_true h
  rw [offsetImm, funct4Field_append]
  exact signExtend_extract_of_range 3 imm (by decide) hl (Int.lt_add_one_of_le hu)

theorem branchImm_wordOf {imm : Word} (h : branchOk imm = true) (rs2 rd : RegIdx) (f o : BitVec 3) :
    branchImm (wordOf (imm.extractLsb' 1 4 ++ rs2) rd f o) = imm := by
  obtain ⟨hl, hu, he⟩ := of_decide_eq_true h
  rw [branchImm, funct4Field_append, extract_append_zero imm 1 he]
  exact signExtend_extract_of_range 4 imm (by decide) hl (by omega)

theorem jumpImm_wordOf {imm : Word} (h : jumpOk imm = true) (l : BitVec 1) (rd : RegIdx) (o : BitVec 3) :
    jumpImm (wordOf (l ++ imm.extractLsb' 4 6) rd (imm.extractLsb' 1 3) o) = imm := by
  obtain ⟨hl, hu, he⟩ := of_decide_eq_true h
  rw [jumpImm, immHiField_append, funct3Field_wordOf,
    extractLsb'_append_extractLsb'_eq_extractLsb' (by rfl), extract_append_zero imm 1 he]
  exact signExtend_extract_of_range 9 imm (by decide) hl (by omega)

theorem upperImm_wordOf {imm : Word} (h : upperOk imm = true) (l : BitVec 1) (rd : RegIdx) (o : BitVec 3) :
    upperImm (wordOf (l ++ imm.extractLsb' 10 6) rd (imm.extractLsb' 7 3) o) = imm := by
  have he : imm.toNat % 128 = 0 := of_decide_eq_true h
  rw [upperImm, immHiField_append, funct3Field_wordOf,
    extractLsb'_append_extractLsb'_eq_extractLsb' (by rfl), extract_append_zero imm 7 he]
  exact extractLsb'_eq_self

end Sys2Proof
end

section
/-! PROOFS. Decoded instructions are well formed (rule R88): the immediate is one its format's field gives. -/

namespace Sys2Proof

/-! ## The range that `Instr.wf` asks of each format's instructions -/

theorem regInstr_wf (d : Decoded) (o : RegOp) : (regInstr d o).wf = true := by cases o <;> rfl
theorem immInstr_wf (d : Decoded) (o : ImmOp) :
    (immInstr d o).wf = if o = .sltui then uimmOk d.imm else immOk d.imm := by cases o <;> rfl
theorem shiftInstr_wf (d : Decoded) (o : ShiftOp) : (shiftInstr d o).wf = true := by cases o <;> rfl
theorem branchInstr_wf (d : Decoded) (o : BranchOp) : (branchInstr d o).wf = branchOk d.imm := by cases o <;> rfl
theorem storeInstr_wf (d : Decoded) (o : StoreOp) : (storeInstr d o).wf = offsetOk d.imm := by cases o <;> rfl
theorem loadInstr_wf (d : Decoded) (o : LoadOp) : (loadInstr d o).wf = offsetOk d.imm := by cases o <;> rfl

/-- The immediate decoded with an Imm operation is in that operation's range. -/
theorem decodeImm_immOp_ok {t : Tables} {w : Word} {o : ImmOp} (h : SelectedBy t w (.imm o)) :
    (if o = .sltui then uimmOk (decodeImm t w) else immOk (decodeImm t w)) = true := by
  rw [decodeImm_of_immOp h]
  by_cases ho : o = .sltui
  · rw [if_pos ho, if_pos ho]; exact immUnsigned_ok w
  · rw [if_neg ho, if_neg ho]; exact immSigned_ok w

/-- Settles O10: by the selected operation, whose format names the field the immediate comes from. -/
theorem decodedInstructionWellFormed : Obligations.DecodedInstructionWellFormed := by
  unfold Obligations.DecodedInstructionWellFormed
  intro t w i h
  have hs := selectedBy_decodeOp t w
  rw [decodeWord_of_selectedBy hs] at h
  generalize decodeOp t w = op at hs h
  cases op with
  | reg o => cases h; exact regInstr_wf _ o
  | imm o => cases h; exact (immInstr_wf _ o).trans (decodeImm_immOp_ok hs)
  | shift o => cases h; exact shiftInstr_wf _ o
  | branch o =>
    cases h
    exact (branchInstr_wf _ o).trans ((congrArg branchOk (decodeImm_of_branch hs.1)).trans (branchImm_ok w))
  | store o =>
    cases h
    exact (storeInstr_wf _ o).trans ((congrArg offsetOk (decodeImm_of_store hs.1)).trans (offsetImm_ok w))
  | load o =>
    cases h
    exact (loadInstr_wf _ o).trans ((congrArg offsetOk (decodeImm_of_load hs.1)).trans (offsetImm_ok w))
  | j | jal => cases h; exact (congrArg jumpOk (decodeImm_of_jump hs.1)).trans (jumpImm_ok w)
  | lui | auipc => cases h; exact (congrArg upperOk (decodeImm_of_upper hs.1)).trans (upperImm_ok w)
  | ecall => cases h; rfl
  | unimpl r => cases h

end Sys2Proof
end

section
/-! PROOFS. Decoding an encoded instruction (rule R87): a word packed with an operation's code is selected by it, and
its fields are the operands. -/

namespace Sys2Proof

open BitVec

/-! ## In well-formed tables an operation's code selects it -/

section
variable {t : Tables} (ht : tablesOk t = true)
include ht

theorem rFunct_regCode (o : RegOp) : t.rFunct.op (regCode t o) = some o := by
  obtain ⟨hr, -⟩ := tablesOk_parts t ht
  exact CodeTable.op_code _ _ _ hr o (allRegOps_complete o)

theorem iFunct3_immCode (o : ImmOp) : t.iFunct3.op (immCode t o) = some o := by
  obtain ⟨-, hi, -⟩ := tablesOk_parts t ht
  exact CodeTable.op_code _ _ _ hi o (allImmOps_complete o)

theorem immCode_ne_three (o : ImmOp) : immCode t o ≠ 3 := by
  obtain ⟨-, -, h3, -⟩ := tablesOk_parts t ht
  exact h3 o

theorem shiftMode_shiftCode (o : ShiftOp) : t.shiftMode.op (shiftCode t o) = some o := by
  obtain ⟨-, -, -, hm, -⟩ := tablesOk_parts t ht
  exact CodeTable.op_code _ _ _ hm o (allShiftOps_complete o)

theorem bFunct3_branchCode (o : BranchOp) : t.bFunct3.op (branchCode t o) = some o := by
  obtain ⟨-, -, -, -, hb, -⟩ := tablesOk_parts t ht
  exact CodeTable.op_code _ _ _ hb o (allBranchOps_complete o)

theorem sFunct3_storeCode (o : StoreOp) : t.sFunct3.op (storeCode t o) = some o := by
  obtain ⟨-, -, -, -, -, hs, -⟩ := tablesOk_parts t ht
  exact CodeTable.op_code _ _ _ hs o (by cases o <;> decide)

theorem lFunct3_loadCode (o : LoadOp) : t.lFunct3.op (loadCode t o) = some o := by
  obtain ⟨-, -, -, -, -, -, hl⟩ := tablesOk_parts t ht
  exact CodeTable.op_code _ _ _ hl o (by cases o <;> decide)

end

/-! ## Decoding a packed word -/

/-- A word is decoded through its operation and its operands' values. -/
theorem decodeWord_of_operands {t : Tables} {w : Word} {op : Op} {rd rs2 : RegIdx} {imm : Word} {shamt : BitVec 4}
    {svc : BitVec 10} (h : SelectedBy t w op) (hrd : rdField w = rd) (hrs2 : rs2Field w = rs2)
    (himm : decodeImm t w = imm) (hshamt : shamtField w = shamt) (hsvc : svcField w = svc) : decodeWord t w =
      recordInstr { decode t w with op := op, rdRs1 := rd, rs2 := rs2, imm := imm, shamt := shamt, svc := svc } := by
  subst hrd hrs2 himm hshamt hsvc
  exact decodeWord_of_selectedBy h

theorem formatOf_wordOf {x : BitVec 7} {rd : RegIdx} {f : BitVec 3} (g : Format) :
    formatOf (opcodeField (wordOf x rd f (formatOpcode g))) = g := by
  rw [opcodeField_wordOf, formatOf_formatOpcode]

section
variable {t : Tables} (ht : tablesOk t = true)
include ht

theorem decodeWord_packReg (o : RegOp) (rs2 rd : RegIdx) {w : Word} (hw : w = packReg (regCode t o) rs2 rd) :
    decodeWord t w = recordInstr { decode t w with op := .reg o, rdRs1 := rd, rs2 := rs2 } := by
  rw [packReg_eq] at hw
  subst hw
  have hs : SelectedBy t (wordOf ((regCode t o).1 ++ rs2) rd (regCode t o).2 0) (.reg o) := by
    refine ⟨formatOf_wordOf .regReg, ?_⟩
    rw [funct4Field_append, funct3Field_wordOf]
    exact rFunct_regCode ht o
  exact decodeWord_of_operands hs (by simp) (by simp) rfl rfl rfl

theorem decodeWord_packImm (o : ImmOp) (rd : RegIdx) {imm w : Word} (hw : w = packImm (immCode t o) rd imm)
    (hi : (if o = .sltui then uimmOk imm else immOk imm) = true) :
    decodeWord t w = recordInstr { decode t w with op := .imm o, rdRs1 := rd, imm := imm } := by
  rw [packImm_eq] at hw
  subst hw
  have hs : SelectedBy t (wordOf (imm.extractLsb' 0 7) rd (immCode t o) 1) (.imm o) := by
    refine ⟨formatOf_wordOf .imm, ?_⟩
    rw [funct3Field_wordOf]
    exact ⟨immCode_ne_three ht o, iFunct3_immCode ht o⟩
  refine decodeWord_of_operands hs (by simp) rfl ?_ rfl rfl
  rw [decodeImm_of_immOp hs]
  split at hi
  next ho => rw [if_pos ho, immUnsigned_wordOf hi]
  next ho => rw [if_neg ho, immSigned_wordOf hi]

theorem decodeWord_packShift (o : ShiftOp) (rd : RegIdx) (shamt : BitVec 4) {w : Word}
    (hw : w = packShift (shiftCode t o) rd shamt) :
    decodeWord t w = recordInstr { decode t w with op := .shift o, rdRs1 := rd, shamt := shamt } := by
  rw [packShift_eq] at hw
  subst hw
  have hs : SelectedBy t (wordOf (shiftCode t o ++ shamt) rd 3 1) (.shift o) := by
    refine ⟨formatOf_wordOf .imm, funct3Field_wordOf .., ?_⟩
    rw [modeField_append]
    exact shiftMode_shiftCode ht o
  exact decodeWord_of_operands hs (by simp) rfl rfl (by simp) rfl

theorem decodeWord_packBranch (o : BranchOp) (rs1 rs2 : RegIdx) {imm : Word} (hi : branchOk imm = true) {w : Word}
    (hw : w = packBranch (branchCode t o) rs1 rs2 imm) :
    decodeWord t w = recordInstr { decode t w with op := .branch o, rdRs1 := rs1, rs2 := rs2, imm := imm } := by
  rw [packBranch_eq] at hw
  subst hw
  have hs : SelectedBy t (wordOf (imm.extractLsb' 1 4 ++ rs2) rs1 (branchCode t o) 2) (.branch o) := by
    refine ⟨formatOf_wordOf .branch, ?_⟩
    rw [funct3Field_wordOf]
    exact bFunct3_branchCode ht o
  exact decodeWord_of_operands hs (by simp) (by simp)
    ((decodeImm_of_branch hs.1).trans (branchImm_wordOf hi ..)) rfl rfl

theorem decodeWord_packStore (o : StoreOp) (src base : RegIdx) {imm : Word} (hi : offsetOk imm = true) {w : Word}
    (hw : w = packStore (storeCode t o) src base imm) :
    decodeWord t w = recordInstr { decode t w with op := .store o, rdRs1 := src, rs2 := base, imm := imm } := by
  rw [packStore_eq] at hw
  subst hw
  have hs : SelectedBy t (wordOf (imm.extractLsb' 0 4 ++ base) src (storeCode t o) 3) (.store o) := by
    refine ⟨formatOf_wordOf .store, ?_⟩
    rw [funct3Field_wordOf]
    exact sFunct3_storeCode ht o
  exact decodeWord_of_operands hs (by simp) (by simp)
    ((decodeImm_of_store hs.1).trans (offsetImm_wordOf hi ..)) rfl rfl

theorem decodeWord_packLoad (o : LoadOp) (rd base : RegIdx) {imm : Word} (hi : offsetOk imm = true) {w : Word}
    (hw : w = packLoad (loadCode t o) rd base imm) :
    decodeWord t w = recordInstr { decode t w with op := .load o, rdRs1 := rd, rs2 := base, imm := imm } := by
  rw [packLoad_eq] at hw
  subst hw
  have hs : SelectedBy t (wordOf (imm.extractLsb' 0 4 ++ base) rd (loadCode t o) 4) (.load o) := by
    refine ⟨formatOf_wordOf .load, ?_⟩
    rw [funct3Field_wordOf]
    exact lFunct3_loadCode ht o
  exact decodeWord_of_operands hs (by simp) (by simp)
    ((decodeImm_of_load hs.1).trans (offsetImm_wordOf hi ..)) rfl rfl

end

theorem decodeWord_packJump (t : Tables) (rd : RegIdx) {imm : Word} (hi : jumpOk imm = true) :
    decodeWord t (packJump 0 rd imm) = .ok (.j imm) ∧ decodeWord t (packJump 1 rd imm) = .ok (.jal rd imm) := by
  have hf (l : BitVec 1) : formatOf (opcodeField (packJump l rd imm)) = .jump := formatOf_wordOf .jump
  have himm (l : BitVec 1) : decodeImm t (packJump l rd imm) = imm :=
    (decodeImm_of_jump (hf l)).trans (jumpImm_wordOf hi ..)
  have hrd (l : BitVec 1) : rdField (packJump l rd imm) = rd := rdField_wordOf ..
  exact ⟨decodeWord_of_operands (op := .j) ⟨hf _, linkField_append ..⟩ (hrd 0) rfl (himm 0) rfl rfl,
    decodeWord_of_operands (op := .jal) ⟨hf _, linkField_append ..⟩ (hrd 1) rfl (himm 1) rfl rfl⟩

theorem decodeWord_packUpper (t : Tables) (rd : RegIdx) {imm : Word} (hi : upperOk imm = true) :
    decodeWord t (packUpper 0 rd imm) = .ok (.lui rd imm) ∧
      decodeWord t (packUpper 1 rd imm) = .ok (.auipc rd imm) := by
  have hf (l : BitVec 1) : formatOf (opcodeField (packUpper l rd imm)) = .upper := formatOf_wordOf .upper
  have himm (l : BitVec 1) : decodeImm t (packUpper l rd imm) = imm :=
    (decodeImm_of_upper (hf l)).trans (upperImm_wordOf hi ..)
  have hrd (l : BitVec 1) : rdField (packUpper l rd imm) = rd := rdField_wordOf ..
  exact ⟨decodeWord_of_operands (op := .lui) ⟨hf _, linkField_append ..⟩ (hrd 0) rfl (himm 0) rfl rfl,
    decodeWord_of_operands (op := .auipc) ⟨hf _, linkField_append ..⟩ (hrd 1) rfl (himm 1) rfl rfl⟩

theorem decodeWord_packSystem (t : Tables) (svc : BitVec 10) : decodeWord t (packSystem svc) = .ok (.ecall svc) := by
  have hsvc : svcField (packSystem svc) = svc := by
    rw [packSystem_eq, svcField_eq, imm7Field_wordOf, rdField_wordOf,
      extractLsb'_append_extractLsb'_eq_extractLsb' (by rfl)]
    exact extractLsb'_eq_self
  have hs : SelectedBy t (packSystem svc) .ecall := by
    rw [packSystem_eq]
    exact ⟨formatOf_wordOf .system, funct3Field_wordOf ..⟩
  exact decodeWord_of_operands hs rfl rfl rfl rfl hsvc

/-- Settles O8: the encoder packs an instruction by its format with its operation's code, and a packed word decodes to
the operation and the operands. -/
theorem decodeEncodeRoundTrip : Obligations.DecodeEncodeRoundTrip := by
  unfold Obligations.DecodeEncodeRoundTrip
  intro t ht i hi
  cases i with
  | add | sub | slt | sltu | sll | srl | sra | or | and | xor | mv | jr | jalr =>
    exact decodeWord_packReg ht _ _ _ rfl
  | addi | slti | sltui | ori | andi | xori | li => exact decodeWord_packImm ht _ _ rfl hi
  | slli | srli | srai => exact decodeWord_packShift ht _ _ _ rfl
  | beq | bne | bz | bnz | blt | bge | bltu | bgeu => exact decodeWord_packBranch ht _ _ _ hi rfl
  | sb | sw => exact decodeWord_packStore ht _ _ _ hi rfl
  | lb | lw | lbu => exact decodeWord_packLoad ht _ _ _ hi rfl
  | j imm => exact (decodeWord_packJump t 0 hi).1
  | jal rd imm => exact (decodeWord_packJump t rd hi).2
  | lui rd imm => exact (decodeWord_packUpper t rd hi).1
  | auipc rd imm => exact (decodeWord_packUpper t rd hi).2
  | ecall svc => exact decodeWord_packSystem t svc

end Sys2Proof
end

section
/-! PROOFS. Words under a mask (rules R71 to R78): what is left of a word under each mask of the opcode table, and the
fields a match fixes. -/

namespace Sys2Proof

open BitVec

/-- A word under a mask that is given by its fields. -/
theorem and_wordOf (w : Word) (x : BitVec 7) (rd : RegIdx) (f o : BitVec 3) :
    w &&& wordOf x rd f o =
      wordOf (imm7Field w &&& x) (rdField w &&& rd) (funct3Field w &&& f) (opcodeField w &&& o) := by
  rw [← wordOf_and, wordOf_fields]

theorem and_regMask (w : Word) :
    w &&& 0xF03F = wordOf (funct4Field w ++ 0#3) 0#3 (funct3Field w) (opcodeField w) := by
  refine (and_wordOf w (allOnes 4 ++ 0#3) 0#3 (allOnes 3) (allOnes 3)).trans ?_
  rw [← funct4_append_rs2, and_append]
  simp only [and_allOnes, and_zero]

theorem and_functMask (w : Word) : w &&& 0x003F = wordOf 0#7 0#3 (funct3Field w) (opcodeField w) := by
  refine (and_wordOf w 0#7 0#3 (allOnes 3) (allOnes 3)).trans ?_
  simp only [and_allOnes, and_zero]

theorem and_shiftMask (w : Word) :
    w &&& 0xE03F = wordOf (modeField w ++ 0#4) 0#3 (funct3Field w) (opcodeField w) := by
  refine (and_wordOf w (allOnes 3 ++ 0#4) 0#3 (allOnes 3) (allOnes 3)).trans ?_
  rw [← mode_append_shamt, and_append]
  simp only [and_allOnes, and_zero]

theorem and_linkMask (w : Word) : w &&& 0x8007 = wordOf (linkField w ++ 0#6) 0#3 0#3 (opcodeField w) := by
  refine (and_wordOf w (allOnes 1 ++ 0#6) 0#3 0#3 (allOnes 3)).trans ?_
  rw [← link_append_immHi, and_append]
  simp only [and_allOnes, and_zero]

section
variable {w : Word} {f o : BitVec 3}

theorem and_regMask_iff {c : BitVec 4} :
    w &&& 0xF03F = wordOf (c ++ 0#3) 0#3 f o ↔ opcodeField w = o ∧ (funct4Field w, funct3Field w) = (c, f) := by
  rw [and_regMask]
  refine ⟨fun h => ?_, fun ⟨ho, h⟩ => by cases ho; cases h; rfl⟩
  exact ⟨by simpa using congrArg opcodeField h,
    Prod.ext (by simpa using congrArg funct4Field h) (by simpa using congrArg funct3Field h)⟩

theorem and_functMask_iff : w &&& 0x003F = wordOf 0#7 0#3 f o ↔ opcodeField w = o ∧ funct3Field w = f := by
  rw [and_functMask]
  refine ⟨fun h => ?_, fun ⟨ho, h⟩ => by cases ho; cases h; rfl⟩
  exact ⟨by simpa using congrArg opcodeField h, by simpa using congrArg funct3Field h⟩

theorem and_shiftMask_iff {m : BitVec 3} :
    w &&& 0xE03F = wordOf (m ++ 0#4) 0#3 f o ↔ opcodeField w = o ∧ funct3Field w = f ∧ modeField w = m := by
  rw [and_shiftMask]
  refine ⟨fun h => ?_, fun ⟨ho, h, hm⟩ => by cases ho; cases h; cases hm; rfl⟩
  exact ⟨by simpa using congrArg opcodeField h, by simpa using congrArg funct3Field h,
    by simpa using congrArg modeField h⟩

theorem and_linkMask_iff {l : BitVec 1} :
    w &&& 0x8007 = wordOf (l ++ 0#6) 0#3 0#3 o ↔ opcodeField w = o ∧ linkField w = l := by
  rw [and_linkMask]
  refine ⟨fun h => ?_, fun ⟨ho, h⟩ => by cases ho; cases h; rfl⟩
  exact ⟨by simpa using congrArg opcodeField h, by simpa using congrArg linkField h⟩

end

/-! ## Jump, Upper and System words, under any tables -/

section
variable {t : Tables} {w : Word}

theorem selectedBy_j_iff : SelectedBy t w .j ↔ w &&& 0x8007 = 0x0005 :=
  (and_congr_left' formatOf_eq_iff).trans (and_linkMask_iff (l := 0) (o := 5)).symm

theorem selectedBy_jal_iff : SelectedBy t w .jal ↔ w &&& 0x8007 = 0x8005 :=
  (and_congr_left' formatOf_eq_iff).trans (and_linkMask_iff (l := 1) (o := 5)).symm

theorem selectedBy_lui_iff : SelectedBy t w .lui ↔ w &&& 0x8007 = 0x0006 :=
  (and_congr_left' formatOf_eq_iff).trans (and_linkMask_iff (l := 0) (o := 6)).symm

theorem selectedBy_auipc_iff : SelectedBy t w .auipc ↔ w &&& 0x8007 = 0x8006 :=
  (and_congr_left' formatOf_eq_iff).trans (and_linkMask_iff (l := 1) (o := 6)).symm

theorem selectedBy_ecall_iff : SelectedBy t w .ecall ↔ w &&& 0x003F = 0x0007 :=
  (and_congr_left' formatOf_eq_iff).trans (and_functMask_iff (f := 0) (o := 7)).symm

/-- No Jump or Upper word is unimplemented (rule R77). -/
theorem decodeWord_ok_of_jumpUpper (h : formatOf (opcodeField w) = .jump ∨ formatOf (opcodeField w) = .upper) :
    ∃ i, decodeWord t w = .ok i := by
  cases hd : decodeWord t w with
  | ok i => exact ⟨i, rfl⟩
  | error r =>
    have hs := decodeOp_eq_iff.1 ((decodeWord_error t w r).1 hd)
    cases r <;> rcases h with h | h <;> simp [SelectedBy, h] at hs

/-- A j word's instruction (rule R77). -/
theorem decodeWord_of_j (h : SelectedBy t w .j) : decodeWord t w = .ok (.j (jumpImm w)) := by
  rw [decodeWord_of_selectedBy h, ← decodeImm_of_jump (t := t) h.1]
  rfl

end

/-- The word with its rd_rs1 field cleared. -/
theorem and_rdHole (w : Word) : w &&& 0xFE3F = wordOf (imm7Field w) 0#3 (funct3Field w) (opcodeField w) := by
  refine (and_wordOf w (allOnes 7) 0#3 (allOnes 3) (allOnes 3)).trans ?_
  simp only [and_allOnes, and_zero]

/-- The word with `rd` in its rd_rs1 field. -/
theorem replace_rdField (w : Word) (rd : RegIdx) :
    ((w &&& 0xFE3F) ||| (rd.zeroExtend 16 <<< 6) : Word) =
      wordOf (imm7Field w) rd (funct3Field w) (opcodeField w) := by
  have hrd : (rd.zeroExtend 16 <<< 6 : Word) = wordOf 0 rd 0 0 := by revert rd; decide
  refine (congrArg₂ (· ||| ·) (and_rdHole w) hrd).trans ((wordOf_or ..).trans ?_)
  simp

/-- The rd_rs1 field is no part of a j word's displacement or operation (rule R82). -/
theorem decodeWord_j_wordOf {t : Tables} {w : Word} (h : SelectedBy t w .j) (rd : RegIdx) :
    decodeWord t (wordOf (imm7Field w) rd (funct3Field w) (opcodeField w)) = decodeWord t w := by
  have hs : SelectedBy t (wordOf (imm7Field w) rd (funct3Field w) (opcodeField w)) .j := by
    refine ⟨by rw [opcodeField_wordOf]; exact h.1, ?_⟩
    rw [← link_append_immHi, linkField_append]
    exact h.2
  rw [decodeWord_of_j hs, decodeWord_of_j h, jumpImm, jumpImm, ← link_append_immHi, immHiField_append,
    funct3Field_wordOf]

/-- Settles O7: a match under 0x8007 is the opcode and the link bit, and these alone select the operation. -/
theorem linkBitSelectsJumpAndUpper : Obligations.LinkBitSelectsJumpAndUpper := by
  unfold Obligations.LinkBitSelectsJumpAndUpper
  refine ⟨fun t w => ⟨?_, ?_, ?_, ?_⟩, fun t w h => ?_, fun t w rd h => ⟨extract_toNat w 6 3, ?_⟩⟩
  · exact fun h => decodeOp_eq_iff.2 (selectedBy_j_iff.2 h)
  · exact fun h => decodeOp_eq_iff.2 (selectedBy_jal_iff.2 h)
  · exact fun h => decodeOp_eq_iff.2 (selectedBy_lui_iff.2 h)
  · exact fun h => decodeOp_eq_iff.2 (selectedBy_auipc_iff.2 h)
  · exact decodeWord_ok_of_jumpUpper (h.imp formatOf_iff_mod.2 formatOf_iff_mod.2)
  · rw [replace_rdField, decodeWord_j_wordOf (selectedBy_j_iff.2 h)]

/-- Settles O36: a System word's operation rests on funct3 alone, and its service is the svc field. -/
theorem ecallSelectsEveryService : Obligations.EcallSelectsEveryService := by
  unfold Obligations.EcallSelectsEveryService
  refine ⟨fun t w h => decodeWord_of_selectedBy (selectedBy_ecall_iff.2 h), fun t w h h0 => ?_⟩
  have hs : SelectedBy t w (.unimpl .sysReserved) :=
    ⟨formatOf_iff_mod.2 h, fun hf => h0 (funct3Field_eq_iff.1 hf)⟩
  exact (decodeWord_error t w _).2 (decodeOp_eq_iff.2 hs)

end Sys2Proof
end

section
/-! PROOFS. The opcode table (rules R71 to R80): under the default tables a word's operation is the row it matches. -/

namespace Sys2Proof

/-! ## An operation of the default tables has one code -/

/-- In a table that lists no operation twice, the code that selects an operation is that operation's code. -/
theorem CodeTable.code_of_op {κ ω : Type} [DecidableEq κ] [DecidableEq ω] {t : CodeTable κ ω}
    (hn : (t.map Prod.snd).Nodup) (dflt : κ) {k : κ} {o : ω} (h : t.op k = some o) : t.code dflt o = k := by
  obtain ⟨row, hrow, rfl⟩ := Option.map_eq_some_iff.1 h
  have hmem := List.mem_of_find?_eq_some hrow
  have hk : row.1 = k := by simpa using List.find?_some hrow
  unfold CodeTable.code
  cases hc : t.find? fun r => decide (r.2 = row.2) with
  | none => exact absurd (decide_eq_true rfl) (List.find?_eq_none.1 hc row hmem)
  | some r =>
    have ho : r.2 = row.2 := by simpa using List.find?_some hc
    rw [List.inj_on_of_nodup_map hn (List.mem_of_find?_eq_some hc) hmem ho]
    exact hk

theorem default_rFunct_iff {k : BitVec 4 × BitVec 3} {o : RegOp} :
    defaultTables.rFunct.op k = some o ↔ k = regCode defaultTables o :=
  ⟨fun h => (CodeTable.code_of_op (by decide) _ h).symm, fun h => h ▸ rFunct_regCode defaultTables_ok o⟩

theorem default_iFunct3_iff {k : BitVec 3} {o : ImmOp} :
    defaultTables.iFunct3.op k = some o ↔ k = immCode defaultTables o :=
  ⟨fun h => (CodeTable.code_of_op (by decide) _ h).symm, fun h => h ▸ iFunct3_immCode defaultTables_ok o⟩

theorem default_shiftMode_iff {k : BitVec 3} {o : ShiftOp} :
    defaultTables.shiftMode.op k = some o ↔ k = shiftCode defaultTables o :=
  ⟨fun h => (CodeTable.code_of_op (by decide) _ h).symm, fun h => h ▸ shiftMode_shiftCode defaultTables_ok o⟩

theorem default_bFunct3_iff {k : BitVec 3} {o : BranchOp} :
    defaultTables.bFunct3.op k = some o ↔ k = branchCode defaultTables o :=
  ⟨fun h => (CodeTable.code_of_op (by decide) _ h).symm, fun h => h ▸ bFunct3_branchCode defaultTables_ok o⟩

theorem default_sFunct3_iff {k : BitVec 3} {o : StoreOp} :
    defaultTables.sFunct3.op k = some o ↔ k = storeCode defaultTables o :=
  ⟨fun h => (CodeTable.code_of_op (by decide) _ h).symm, fun h => h ▸ sFunct3_storeCode defaultTables_ok o⟩

theorem default_lFunct3_iff {k : BitVec 3} {o : LoadOp} :
    defaultTables.lFunct3.op k = some o ↔ k = loadCode defaultTables o :=
  ⟨fun h => (CodeTable.code_of_op (by decide) _ h).symm, fun h => h ▸ lFunct3_loadCode defaultTables_ok o⟩

/-! ## The row of an operation -/

/-- The match and mask of an operation's row; UNIMPL has none. -/
def opRow : Op → Option (Word × Word)
  | .reg o => some (packReg (regCode defaultTables o) 0 0, 0xF03F)
  | .imm o => some (packImm (immCode defaultTables o) 0 0, 0x003F)
  | .shift o => some (packShift (shiftCode defaultTables o) 0 0, 0xE03F)
  | .branch o => some (packBranch (branchCode defaultTables o) 0 0 0, 0x003F)
  | .store o => some (packStore (storeCode defaultTables o) 0 0 0, 0x003F)
  | .load o => some (packLoad (loadCode defaultTables o) 0 0 0, 0x003F)
  | .j => some (0x0005, 0x8007)
  | .jal => some (0x8005, 0x8007)
  | .lui => some (0x0006, 0x8007)
  | .auipc => some (0x8006, 0x8007)
  | .ecall => some (0x0007, 0x003F)
  | .unimpl _ => none

/-- Each row of the table is its operation's. -/
theorem opRow_of_mem : ∀ row ∈ opcodeRows, opRow row.2.2 = some (row.1, row.2.1) := by decide

/-- Each operation's row is in the table. -/
theorem mem_of_opRow {op : Op} {p m : Word} (h : opRow op = some (p, m)) : (p, m, op) ∈ opcodeRows := by
  cases op with
  | unimpl r => cases h
  | reg o | imm o | shift o | branch o | store o | load o => cases h; cases o <;> decide
  | _ => cases h; decide

/-- Under the default tables an operation is selected by exactly the words that match its row. -/
theorem selectedBy_iff_match {op : Op} {p m : Word} (h : opRow op = some (p, m)) {w : Word} :
    SelectedBy defaultTables w op ↔ w &&& m = p := by
  cases op with
  | reg o =>
    cases h
    exact (and_congr formatOf_eq_iff default_rFunct_iff).trans and_regMask_iff.symm
  | imm o =>
    cases h
    refine (and_congr formatOf_eq_iff ?_).trans and_functMask_iff.symm
    exact ⟨fun ⟨_, ho⟩ => default_iFunct3_iff.1 ho,
      fun hf => ⟨hf ▸ immCode_ne_three defaultTables_ok o, default_iFunct3_iff.2 hf⟩⟩
  | shift o =>
    cases h
    exact (and_congr formatOf_eq_iff (and_congr_right' default_shiftMode_iff)).trans and_shiftMask_iff.symm
  | branch o => cases h; exact (and_congr formatOf_eq_iff default_bFunct3_iff).trans and_functMask_iff.symm
  | store o => cases h; exact (and_congr formatOf_eq_iff default_sFunct3_iff).trans and_functMask_iff.symm
  | load o => cases h; exact (and_congr formatOf_eq_iff default_lFunct3_iff).trans and_functMask_iff.symm
  | j => cases h; exact selectedBy_j_iff
  | jal => cases h; exact selectedBy_jal_iff
  | lui => cases h; exact selectedBy_lui_iff
  | auipc => cases h; exact selectedBy_auipc_iff
  | ecall => cases h; exact selectedBy_ecall_iff
  | unimpl r => cases h

/-- Settles O5: a word that matches a row is selected by the row's operation. -/
theorem opcodeTableSelects : Obligations.OpcodeTableSelects := by
  unfold Obligations.OpcodeTableSelects
  intro row hrow w h
  exact decodeOp_eq_iff.2 ((selectedBy_iff_match (opRow_of_mem row hrow)).2 h)

/-- A word that matches no row is UNIMPL. -/
theorem opRow_decodeOp_eq_none {w : Word} (h : ∀ row ∈ opcodeRows, w &&& row.2.1 ≠ row.1) :
    opRow (decodeOp defaultTables w) = none := by
  by_contra hne
  obtain ⟨⟨p, m⟩, hr⟩ := Option.ne_none_iff_exists'.1 hne
  exact h _ (mem_of_opRow hr) ((selectedBy_iff_match hr).1 (selectedBy_decodeOp defaultTables w))

/-- Every funct3 outside the shift group is the code of an Imm operation (decision D2). -/
theorem default_iFunct3_ne_none {f : BitVec 3} (h : f ≠ 3) : defaultTables.iFunct3.op f ≠ none := by
  revert f; decide

/-- Every funct3 is the code of a branch (decision D4). -/
theorem default_bFunct3_ne_none (f : BitVec 3) : defaultTables.bFunct3.op f ≠ none := by
  revert f; decide

/-- Settles O6: a word that matches no row is UNIMPL; its reason says its format, as every funct3 but 3 is an Imm code
and every funct3 a Branch code by default. -/
theorem otherWordsUnimplemented : Obligations.OtherWordsUnimplemented := by
  unfold Obligations.OtherWordsUnimplemented
  intro w h
  have hr := opRow_decodeOp_eq_none h
  have hs := selectedBy_decodeOp defaultTables w
  rw [decode_op]
  cases hop : decodeOp defaultTables w with
  | unimpl r =>
    rw [hop] at hs
    cases r with
    | badFunct =>
      refine .inl ⟨?_, rfl⟩
      rcases hs with ⟨hf, -⟩ | ⟨-, h3, hn⟩ | ⟨-, hn⟩ | ⟨hf, -⟩ | ⟨hf, -⟩
      · exact .inl (formatOf_iff_mod.1 hf)
      · exact absurd hn (default_iFunct3_ne_none h3)
      · exact absurd hn (default_bFunct3_ne_none _)
      · exact .inr (.inl (formatOf_iff_mod.1 hf))
      · exact .inr (.inr (formatOf_iff_mod.1 hf))
    | badShiftMode =>
      obtain ⟨hf, h3, -⟩ := hs
      exact .inr (.inl ⟨formatOf_iff_mod.1 hf, funct3Field_eq_iff.1 h3, rfl⟩)
    | sysReserved =>
      obtain ⟨hf, h0⟩ := hs
      exact .inr (.inr ⟨formatOf_iff_mod.1 hf, fun h => h0 (funct3Field_eq_iff.2 h), rfl⟩)
  | _ => rw [hop] at hr; cases hr

end Sys2Proof
end

section
/-! PROOFS. Encoding a decoded word (rules R82, R87): a word's own fields, packed, give the word back, and the
don't-care field packed as 0 gives the word with that field cleared. -/

namespace Sys2Proof

open BitVec

/-! ## The fields of a word's immediate -/

/-- The bits below the sign bit's copies are the field's own. -/
theorem extract_signExtend {k : Nat} (x : BitVec k) {lo n : Nat} (h : lo + n ≤ k) (hk : k ≤ 16) :
    (x.signExtend 16).extractLsb' lo n = x.extractLsb' lo n := by
  ext i hi
  have h16 : lo + i < 16 := by omega
  have hk' : lo + i < k := by omega
  simp [getElem_signExtend, h16, hk']

theorem extract_immSigned (w : Word) : (immSigned w).extractLsb' 0 7 = imm7Field w :=
  (extract_signExtend _ (by decide) (by decide)).trans extractLsb'_eq_self

theorem extract_immUnsigned (w : Word) : (immUnsigned w).extractLsb' 0 7 = imm7Field w :=
  (extractLsb'_setWidth_of_le (by decide)).trans extractLsb'_eq_self

/-- Signed or unsigned, the immediate of an Imm operation holds imm7 in its low bits. -/
theorem extract_decodeImm_of_immOp {t : Tables} {w : Word} {o : ImmOp} (h : SelectedBy t w (.imm o)) :
    (decodeImm t w).extractLsb' 0 7 = imm7Field w := by
  rw [decodeImm_of_immOp h]
  split
  · exact extract_immUnsigned w
  · exact extract_immSigned w

theorem extract_branchImm (w : Word) : (branchImm w).extractLsb' 1 4 = funct4Field w :=
  (extract_signExtend _ (by decide) (by decide)).trans extractLsb'_append_eq_left

theorem extract_offsetImm (w : Word) : (offsetImm w).extractLsb' 0 4 = funct4Field w :=
  (extract_signExtend _ (by decide) (by decide)).trans extractLsb'_eq_self

theorem extract_jumpImm_hi (w : Word) : (jumpImm w).extractLsb' 4 6 = immHiField w :=
  (extract_signExtend _ (by decide) (by decide)).trans <|
    (extractLsb'_append_eq_of_le (by decide)).trans extractLsb'_append_eq_left

theorem extract_jumpImm_lo (w : Word) : (jumpImm w).extractLsb' 1 3 = funct3Field w :=
  (extract_signExtend _ (by decide) (by decide)).trans <|
    (extractLsb'_append_eq_of_le (by decide)).trans extractLsb'_append_eq_right

theorem extract_upperImm_hi (w : Word) : (upperImm w).extractLsb' 10 6 = immHiField w :=
  (extractLsb'_append_eq_of_le (by decide)).trans extractLsb'_append_eq_left

theorem extract_upperImm_lo (w : Word) : (upperImm w).extractLsb' 7 3 = funct3Field w :=
  (extractLsb'_append_eq_of_le (by decide)).trans extractLsb'_append_eq_right

/-! ## A word's own fields, packed -/

/-- The word with its rs2 field cleared. -/
theorem and_rs2Hole (w : Word) :
    w &&& 0xF1FF = wordOf (funct4Field w ++ 0#3) (rdField w) (funct3Field w) (opcodeField w) := by
  refine (and_wordOf w (allOnes 4 ++ 0#3) (allOnes 3) (allOnes 3) (allOnes 3)).trans ?_
  rw [← funct4_append_rs2, and_append]
  simp only [and_allOnes, and_zero]

theorem wordOf_of_opcode {w : Word} {o : BitVec 3} (h : opcodeField w = o) :
    wordOf (imm7Field w) (rdField w) (funct3Field w) o = w := by
  rw [← h, wordOf_fields]

section
variable {w : Word}

theorem packReg_fields (h : opcodeField w = 0) :
    packReg (funct4Field w, funct3Field w) (rs2Field w) (rdField w) = w := by
  rw [packReg_eq, funct4_append_rs2, wordOf_of_opcode h]

theorem packReg_fields_rs2_zero (h : opcodeField w = 0) :
    packReg (funct4Field w, funct3Field w) 0 (rdField w) = w &&& 0xF1FF := by
  rw [and_rs2Hole, h]
  rfl

theorem packImm_fields {imm : Word} (h : opcodeField w = 1) (hi : imm.extractLsb' 0 7 = imm7Field w) :
    packImm (funct3Field w) (rdField w) imm = w := by
  rw [packImm_eq, hi, wordOf_of_opcode h]

theorem packShift_fields (h : opcodeField w = 1) (h3 : funct3Field w = 3) :
    packShift (modeField w) (rdField w) (shamtField w) = w := by
  rw [packShift_eq, mode_append_shamt, ← h3, wordOf_of_opcode h]

theorem packBranch_fields (h : opcodeField w = 2) :
    packBranch (funct3Field w) (rdField w) (rs2Field w) (branchImm w) = w := by
  rw [packBranch_eq, extract_branchImm, funct4_append_rs2, wordOf_of_opcode h]

theorem packBranch_fields_rs2_zero (h : opcodeField w = 2) :
    packBranch (funct3Field w) (rdField w) 0 (branchImm w) = w &&& 0xF1FF := by
  rw [packBranch_eq, extract_branchImm, and_rs2Hole, h]
  rfl

theorem packStore_fields (h : opcodeField w = 3) :
    packStore (funct3Field w) (rdField w) (rs2Field w) (offsetImm w) = w := by
  rw [packStore_eq, extract_offsetImm, funct4_append_rs2, wordOf_of_opcode h]

theorem packLoad_fields (h : opcodeField w = 4) :
    packLoad (funct3Field w) (rdField w) (rs2Field w) (offsetImm w) = w := by
  rw [packLoad_eq, extract_offsetImm, funct4_append_rs2, wordOf_of_opcode h]

theorem packJump_fields (h : opcodeField w = 5) : packJump (linkField w) (rdField w) (jumpImm w) = w := by
  rw [packJump_eq, extract_jumpImm_hi, extract_jumpImm_lo, link_append_immHi, wordOf_of_opcode h]

theorem packJump_fields_rd_zero (h : opcodeField w = 5) : packJump (linkField w) 0 (jumpImm w) = w &&& 0xFE3F := by
  rw [packJump_eq, extract_jumpImm_hi, extract_jumpImm_lo, link_append_immHi, and_rdHole, h]
  rfl

theorem packUpper_fields (h : opcodeField w = 6) : packUpper (linkField w) (rdField w) (upperImm w) = w := by
  rw [packUpper_eq, extract_upperImm_hi, extract_upperImm_lo, link_append_immHi, wordOf_of_opcode h]

theorem packSystem_fields (h : opcodeField w = 7) (h0 : funct3Field w = 0) : packSystem (svcField w) = w := by
  have hhi : (svcField w).extractLsb' 3 7 = imm7Field w := by
    rw [svcField_eq]; exact extractLsb'_append_eq_left
  have hlo : (svcField w).extractLsb' 0 3 = rdField w := by
    rw [svcField_eq]; exact extractLsb'_append_eq_right
  rw [packSystem_eq, hhi, hlo, ← h0, wordOf_of_opcode h]

end

/-! ## The encoder and the don't-care fields, by format -/

section
variable (t : Tables) (w : Word) (d : Decoded)

theorem encode_regInstr (o : RegOp) :
    encode t (regInstr d o) = packReg (regCode t o) (if o = .jr then 0 else d.rs2) d.rdRs1 := by cases o <;> rfl
theorem encode_immInstr (o : ImmOp) : encode t (immInstr d o) = packImm (immCode t o) d.rdRs1 d.imm := by
  cases o <;> rfl
theorem encode_shiftInstr (o : ShiftOp) : encode t (shiftInstr d o) = packShift (shiftCode t o) d.rdRs1 d.shamt := by
  cases o <;> rfl
theorem encode_branchInstr (o : BranchOp) : encode t (branchInstr d o) =
    packBranch (branchCode t o) d.rdRs1 (if o = .bz ∨ o = .bnz then 0 else d.rs2) d.imm := by cases o <;> rfl
theorem encode_storeInstr (o : StoreOp) :
    encode t (storeInstr d o) = packStore (storeCode t o) d.rdRs1 d.rs2 d.imm := by cases o <;> rfl
theorem encode_loadInstr (o : LoadOp) :
    encode t (loadInstr d o) = packLoad (loadCode t o) d.rdRs1 d.rs2 d.imm := by cases o <;> rfl

theorem clearDontCare_regInstr (o : RegOp) :
    clearDontCare w (regInstr d o) = if o = .jr then w &&& 0xF1FF else w := by cases o <;> rfl
theorem clearDontCare_immInstr (o : ImmOp) : clearDontCare w (immInstr d o) = w := by cases o <;> rfl
theorem clearDontCare_shiftInstr (o : ShiftOp) : clearDontCare w (shiftInstr d o) = w := by cases o <;> rfl
theorem clearDontCare_branchInstr (o : BranchOp) :
    clearDontCare w (branchInstr d o) = if o = .bz ∨ o = .bnz then w &&& 0xF1FF else w := by cases o <;> rfl
theorem clearDontCare_storeInstr (o : StoreOp) : clearDontCare w (storeInstr d o) = w := by cases o <;> rfl
theorem clearDontCare_loadInstr (o : LoadOp) : clearDontCare w (loadInstr d o) = w := by cases o <;> rfl

end

/-- Settles O9: an operation's code is the one the word holds, and the other fields are packed as they were read. -/
theorem reencodeKeepsWord : Obligations.ReencodeKeepsWord := by
  unfold Obligations.ReencodeKeepsWord
  intro w i h
  have hs := selectedBy_decodeOp defaultTables w
  rw [decodeWord_of_selectedBy hs] at h
  generalize decodeOp defaultTables w = op at hs h
  cases op with
  | reg o =>
    obtain ⟨hf, ho⟩ := hs
    cases h
    rw [encode_regInstr, clearDontCare_regInstr, ← default_rFunct_iff.1 ho]
    split
    · exact packReg_fields_rs2_zero (formatOf_eq_iff.1 hf)
    · exact packReg_fields (formatOf_eq_iff.1 hf)
  | imm o =>
    have himm := extract_decodeImm_of_immOp hs
    obtain ⟨hf, -, ho⟩ := hs
    cases h
    rw [encode_immInstr, clearDontCare_immInstr, ← default_iFunct3_iff.1 ho]
    exact packImm_fields (formatOf_eq_iff.1 hf) himm
  | shift o =>
    obtain ⟨hf, h3, ho⟩ := hs
    cases h
    rw [encode_shiftInstr, clearDontCare_shiftInstr, ← default_shiftMode_iff.1 ho]
    exact packShift_fields (formatOf_eq_iff.1 hf) h3
  | branch o =>
    obtain ⟨hf, ho⟩ := hs
    cases h
    rw [encode_branchInstr, clearDontCare_branchInstr, ← default_bFunct3_iff.1 ho, decode_imm, decodeImm_of_branch hf]
    split
    · exact packBranch_fields_rs2_zero (formatOf_eq_iff.1 hf)
    · exact packBranch_fields (formatOf_eq_iff.1 hf)
  | store o =>
    obtain ⟨hf, ho⟩ := hs
    cases h
    rw [encode_storeInstr, clearDontCare_storeInstr, ← default_sFunct3_iff.1 ho, decode_imm, decodeImm_of_store hf]
    exact packStore_fields (formatOf_eq_iff.1 hf)
  | load o =>
    obtain ⟨hf, ho⟩ := hs
    cases h
    rw [encode_loadInstr, clearDontCare_loadInstr, ← default_lFunct3_iff.1 ho, decode_imm, decodeImm_of_load hf]
    exact packLoad_fields (formatOf_eq_iff.1 hf)
  | j =>
    obtain ⟨hf, hl⟩ := hs
    cases h
    rw [decode_imm, decodeImm_of_jump hf, encode, ← hl]
    exact packJump_fields_rd_zero (formatOf_eq_iff.1 hf)
  | jal =>
    obtain ⟨hf, hl⟩ := hs
    cases h
    rw [decode_imm, decodeImm_of_jump hf, encode, ← hl]
    exact packJump_fields (formatOf_eq_iff.1 hf)
  | lui | auipc =>
    obtain ⟨hf, hl⟩ := hs
    cases h
    rw [decode_imm, decodeImm_of_upper hf, encode, ← hl]
    exact packUpper_fields (formatOf_eq_iff.1 hf)
  | ecall =>
    obtain ⟨hf, h0⟩ := hs
    cases h
    exact packSystem_fields (formatOf_eq_iff.1 hf) h0
  | unimpl r => cases h

end Sys2Proof
end

section
/-! PROOFS. The sequencer (rules R102 to R111): when a state steps, what it runs, and what a step emits. -/

namespace Sys2Proof.Machine

/-! ## The checks before the fetch, as numbers (rules R102, R103) -/

theorem exhausted_eq_true_iff {pc : Word} : exhausted pc = true ↔ pc.toNat + 1 ≥ 65536 := decide_eq_true_iff

theorem exhausted_eq_false_iff {pc : Word} : exhausted pc = false ↔ pc.toNat + 1 < 65536 := by
  rw [← Bool.not_eq_true, exhausted_eq_true_iff, ge_iff_le, Nat.not_le]

theorem oddPc_eq_true_iff {pc : Word} : oddPc pc = true ↔ pc.toNat % 2 = 1 := decide_eq_true_iff

/-- A state that fetches passes both checks of the model's step. -/
theorem checks_of_fetches {s : State} (h : Fetches s) :
    s.status = .running ∧ exhausted s.pc = false ∧ ¬(oddPc s.pc = true ∧ s.cfg.oddFetch = .fault) := by
  obtain ⟨hr, hpc, hodd⟩ := h
  refine ⟨hr, exhausted_eq_false_iff.2 hpc, fun ⟨ho, hp⟩ => ?_⟩
  rw [hodd (oddPc_eq_true_iff.1 ho)] at hp
  cases hp

/-- Settles O42: a pc with pc + 1 >= 65536 is the model's exhausted pc. -/
theorem exhaustionHaltsBeforeFetch : Obligations.ExhaustionHaltsBeforeFetch := by
  unfold Obligations.ExhaustionHaltsBeforeFetch
  intro s hr hpc
  exact step_of_exhausted s hr (exhausted_eq_true_iff.2 hpc)

/-- Settles O43: an odd pc below 0xFFFF passes the exhaustion check, and a misaligned fetch records no word. -/
theorem oddFetchFaultsByPolicy : Obligations.OddFetchFaultsByPolicy := by
  unfold Obligations.OddFetchFaultsByPolicy
  intro s hr hodd hpc hp
  exact step_of_misaligned s hr (exhausted_eq_false_iff.2 (by omega)) (oddPc_eq_true_iff.2 hodd) hp

/-- Settles O41: the fetched word is the one the model reads at the pc, and `traced` emits its record. -/
theorem stepRunsDecodedInstruction : Obligations.StepRunsDecodedInstruction := by
  unfold Obligations.StepRunsDecodedInstruction
  intro s w i hf hw hd
  obtain ⟨hr, he, ho⟩ := checks_of_fetches hf
  obtain rfl := (fetchedWord_iff s w).1 hw
  exact step_of_decoded s hr he ho i hd

/-! ## Only a RUNNING state steps (rules R31, R109) -/

theorem step_of_halted {s : State} {c : HaltCause} (h : s.status = .halted c) : step s = .fault .alreadyHalted := by
  rw [step, fetchStage, h]

theorem step_of_faulted {s : State} {c : FaultCause} {a : Word} {w : Option Word} (h : s.status = .faulted c a w) :
    step s = .fault .alreadyFaulted := by
  rw [step, fetchStage, h]

theorem exists_step_of_running {s : State} (h : s.status = .running) : ∃ t, step s = .next t := by
  obtain ⟨t, es, -, hs⟩ := step_appendsOnly s h
  exact ⟨_, hs s.out⟩

/-- Settles O45, by the three kinds of status. -/
theorem stepOnlyWhenRunning : Obligations.StepOnlyWhenRunning := by
  unfold Obligations.StepOnlyWhenRunning
  intro s
  refine ⟨⟨exists_step_of_running, fun ⟨t, h⟩ => running_of_step s t h⟩, fun h => ?_, fun h => ?_⟩
  · cases hs : s.status with
    | halted c => exact step_of_halted hs
    | running | faulted => rw [hs] at h; cases h
  · cases hs : s.status with
    | faulted c a w => exact step_of_faulted hs
    | running | halted => rw [hs] at h; cases h

end Sys2Proof.Machine
end

section
/-! PROOFS. Runs (rules R111, R221): every state of a run but the last has taken a step. -/

namespace Sys2Proof.Machine

/-- A run of `n + 1` steps is a step, then a run of `n`. -/
theorem run_succ_eq_next_iff {M : Host.Core} {n : Nat} {s t : M.State} :
    M.run (n + 1) s = .next t ↔ ∃ u, M.step s = .next u ∧ M.run n u = .next t := by
  rw [Host.Core.run]
  cases M.step s <;> simp

/-- Settles O58, by induction on the run: the first state of a run with a step takes it, so it is RUNNING. -/
theorem runEndsWhenStopped : Obligations.RunEndsWhenStopped := by
  unfold Obligations.RunEndsWhenStopped
  intro n k s t u ht hk hu
  induction n generalizing k s with
  | zero => exact absurd hk k.not_lt_zero
  | succ n ih =>
    obtain ⟨v, hv, hvt⟩ := run_succ_eq_next_iff.1 ht
    cases k with
    | zero => cases hu; exact running_of_step _ v hv
    | succ k =>
      obtain ⟨v', hv', hvu⟩ := run_succ_eq_next_iff.1 hu
      cases hv.symm.trans hv'
      exact ih k v hvt (Nat.lt_of_succ_lt_succ hk) hvu

end Sys2Proof.Machine
end

section
/-! PROOFS. What an instruction emits (rules R101, R110): at most one event, and no trace record. -/

namespace Sys2Proof.Machine

/-- From `s` to `t` at most one event was appended, and no trace record. -/
def EmitsAtMostOne (s t : State) : Prop := ∃ es, t.out = s.out ++ es ∧ es.length ≤ 1 ∧ traceCount es = 0

theorem EmitsAtMostOne.of_out_eq {s t : State} (h : t.out = s.out) : EmitsAtMostOne s t :=
  ⟨[], by rw [h, List.append_nil], Nat.zero_le 1, rfl⟩

theorem EmitsAtMostOne.of_emit {s t : State} {e : Event} (h : t.out = (s.emit e).out) (he : traceCount [e] = 0) :
    EmitsAtMostOne s t :=
  ⟨[e], h, Nat.le_refl 1, he⟩

theorem unimplemented_emitsAtMostOne (s : State) : EmitsAtMostOne s s.unimplemented := by
  refine .of_emit (e := .unimplemented s.pc s.instrWord) ?_ rfl
  rcases s.unimplemented_cases with ⟨-, h⟩ | ⟨-, h⟩ <;> simp [h]

theorem printStrService_emitsAtMostOne (s : State) : EmitsAtMostOne s (printStrService s) := by
  rcases printStrService_cases s with ⟨bs, -, h⟩ | ⟨-, h⟩ <;> rw [h]
  · exact .of_emit (State.movePc_out _ _) rfl
  · exact .of_out_eq rfl

theorem execEcall_emitsAtMostOne {svc : BitVec 10} {s t : State} (h : execEcall svc s = .next t) :
    EmitsAtMostOne s t := by
  rcases execEcall_cases svc s with ⟨-, he⟩ | ⟨-, he⟩ | ⟨-, he⟩ | ⟨-, -, -, he⟩ <;> rw [he] at h <;> cases h
  · exact .of_out_eq rfl
  · exact .of_emit (State.movePc_out _ _) rfl
  · exact printStrService_emitsAtMostOne s
  · exact unimplemented_emitsAtMostOne s

/-- An instruction other than ecall emits nothing, and ecall what its service emits. -/
theorem exec_emitsAtMostOne {i : Instr} {s t : State} (h : exec i s = .next t) : EmitsAtMostOne s t := by
  cases execShape i with
  | writes rd v _ _ he => rw [he] at h; cases h; exact .of_out_eq (State.movePc_out _ _)
  | loads n get rd base imm _ he =>
    rw [he] at h
    rcases loadOp_cases n get rd base imm s with ⟨a, -, hl⟩ | ⟨-, hl⟩ <;> rw [hl] at h <;> cases h
    · exact .of_out_eq (State.movePc_out _ _)
    · exact .of_out_eq rfl
  | stores n put base imm _ he =>
    rw [he] at h
    rcases storeOp_cases n (put s) base imm s with ⟨a, -, hl⟩ | ⟨-, hl⟩ <;> rw [hl] at h <;> cases h
    · exact .of_out_eq (State.movePc_out _ _)
    · exact .of_out_eq rfl
  | branches c imm _ _ he =>
    rw [he] at h
    cases h
    refine .of_out_eq ?_
    split <;> exact s.movePc_out _
  | jal rd imm hi => subst hi; cases h; exact .of_out_eq (State.movePc_out _ _)
  | jr rd hi => subst hi; cases h; exact .of_out_eq rfl
  | jalr rd rs2 hi => subst hi; cases h; exact .of_out_eq rfl
  | ecall svc hi => subst hi; exact execEcall_emitsAtMostOne h

/-- A step that fetches emits the trace record, and after it at most one event that is none (rules R101, R105). -/
theorem step_emits_of_fetches {s t : State} (hf : Fetches s) (h : step s = .next t) :
    EmitsAtMostOne (s.emit s.fetchTrace) t := by
  obtain ⟨hr, he, ho⟩ := checks_of_fetches hf
  cases hd : decodeWord s.cfg.tables s.instrWord with
  | ok i => exact exec_emitsAtMostOne ((step_of_decoded s hr he ho i hd).symm.trans h)
  | error r =>
    rw [step_of_unimpl s hr he ho r hd] at h
    cases h
    exact unimplemented_emitsAtMostOne _

/-- Settles O51: the step emits the trace record before it runs the instruction or the unimplemented operation. -/
theorem traceOncePerFetchedWord : Obligations.TraceOncePerFetchedWord := by
  unfold Obligations.TraceOncePerFetchedWord
  intro s t w hf hw h
  obtain rfl := (fetchedWord_iff s w).1 hw
  obtain ⟨es, hout, hlen, hcount⟩ := step_emits_of_fetches hf h
  exact ⟨es, hout.trans (List.append_cons ..).symm, hlen, hcount⟩

end Sys2Proof.Machine
end

section
/-! PROOFS. What the statements about single instructions share: the word that spells one, the next pc, and an
instruction that writes one register and goes on (rules R24, R106, R108). -/

namespace Sys2Proof

/-- Under the default tables a word that matches a row spells the instruction of the row's operation and its own fields
(rules R71 to R80). -/
theorem spells_of_mem {p m : Word} {op : Op} {f : Word → Instr} (h : (p, m, op) ∈ opcodeRows)
    (hf : ∀ w, recordInstr { decode defaultTables w with op := op } = .ok (f w)) : Spells defaultTables p m f :=
  fun w hw => (decodeWord_of_selectedBy ((selectedBy_iff_match (opRow_of_mem _ h)).2 hw)).trans (hf w)

namespace Machine

/-- `movePc` moves the pc as rules R106 and R108 have it. -/
theorem State.movePc_pcMoved (s : State) (off : Int) : PcMoved s (s.movePc off) off := by
  have outside : overflows s off ↔ s.cfg.pcOverflow = .exhaust ∧
      ((s.pc.toNat : Int) + off < 0 ∨ 65536 ≤ (s.pc.toNat : Int) + off) := by
    unfold overflows State.exactPc
    rw [not_and_or, Int.not_le, Int.not_lt]
  unfold PcMoved
  rcases s.movePc_cases off with ⟨ho, he⟩ | ⟨ho, he⟩ <;> rw [he]
  · rw [if_pos (outside.1 ho)]
    exact ⟨rfl, rfl⟩
  · rw [if_neg (mt outside.2 ho)]
    refine ⟨?_, rfl⟩
    rw [State.setPc_pc, BitVec.toNat_add, BitVec.toNat_ofInt]
    omega

/-- An instruction that writes `v` to `rd` and advances completes, and changes nothing else. -/
theorem writesReg_of_exec {i : Instr} {s : State} {rd : RegIdx} {v : Word} {P : Word → Prop}
    (he : exec i s = .next (s.setReg rd v).advance) (hv : P v) : WritesReg i s rd P := by
  refine ⟨_, he, ?_, fun r hr => ?_, fun a => ?_, ⟨?_, ?_⟩, (s.setReg rd v).movePc_pcMoved 2⟩
  · rwa [State.advance_eq, State.movePc_reg, State.reg_setReg_self]
  · rw [State.advance_eq, State.movePc_reg, State.reg_setReg_other s rd r v hr]
  · rw [State.advance_eq, State.movePc_mem, State.setReg_mem]
  · rw [State.advance_eq, State.movePc_out, State.setReg_out]
  · rw [State.advance_eq, State.movePc_cfg, State.setReg_cfg]

theorem linkValue_toNat (s : State) : (linkValue s).toNat = (s.pc.toNat + 2) % 65536 := BitVec.toNat_add _ _

/-! ## Differences, comparisons and shifts, as numbers -/

/-- The difference of words is the integer difference modulo 2^16. -/
theorem sub_toNat (a b : Word) : ((a - b).toNat : Int) = ((a.toNat : Int) - b.toNat) % 65536 := by
  rw [BitVec.toNat_sub]
  have := b.isLt
  omega

theorem boolWord_decide (p : Prop) [Decidable p] : boolWord (decide p) = if p then 1 else 0 := by
  simp only [boolWord, decide_eq_true_eq]

theorem boolWord_ltSigned (a b : Word) : boolWord (ltSigned a b) = if a.toInt < b.toInt then 1 else 0 :=
  boolWord_decide _

theorem boolWord_ltUnsigned (a b : Word) : boolWord (ltUnsigned a b) = if a.toNat < b.toNat then 1 else 0 :=
  boolWord_decide _

theorem shiftAmount_eq (v : Word) : shiftAmount v = v.toNat % 16 := by
  rw [shiftAmount, extract_toNat, pow_zero, Nat.div_one]
  rfl

theorem shiftLeft_toNat (a : Word) (k : Nat) : (a <<< k).toNat = a.toNat * 2 ^ k % 65536 := by
  rw [BitVec.toNat_shiftLeft, Nat.shiftLeft_eq]

theorem ushiftRight_toNat (a : Word) (k : Nat) : (a >>> k).toNat = a.toNat / 2 ^ k := by
  rw [BitVec.toNat_ushiftRight, Nat.shiftRight_eq_div_pow]

theorem sshiftRight_toInt (a : Word) (k : Nat) : (a.sshiftRight k).toInt = a.toInt / 2 ^ k := by
  rw [BitVec.toInt_sshiftRight, Int.shiftRight_eq_div_pow, Nat.cast_pow, Nat.cast_two]

end Machine

end Sys2Proof
end

section
/-! PROOFS. The RegReg instructions (rules R120 to R133). -/

namespace Sys2Proof.Machine

/-- Under the default tables a word that matches a RegReg row spells the row's operation on its rd_rs1 and rs2. -/
theorem spells_reg {p : Word} {o : RegOp} (h : (p, 0xF03F, .reg o) ∈ opcodeRows) :
    Spells defaultTables p 0xF03F fun w => regInstr (decode defaultTables w) o :=
  spells_of_mem h fun _ => rfl

/-! ## jalr (rule R133) -/

/-- Under `after_link` the target is read from the state that holds the link. -/
theorem jalrTarget_afterLink {s : State} (h : s.cfg.jalrAlias = .afterLink) (linked : State) (rs2 : RegIdx) :
    jalrTarget s linked rs2 = linked.reg rs2 := by
  rw [jalrTarget, h]

/-- Under `before_link` the target is read from the state before the link is written. -/
theorem jalrTarget_beforeLink {s : State} (h : s.cfg.jalrAlias = .beforeLink) (linked : State) (rs2 : RegIdx) :
    jalrTarget s linked rs2 = s.reg rs2 := by
  rw [jalrTarget, h]

/-- Settles O18: the link is written first, and the target is by `JALR_ALIAS` read after or before that write. -/
theorem jalrResult : Obligations.JalrResult := by
  unfold Obligations.JalrResult
  refine ⟨spells_reg (o := .jalr) (by decide), fun s rd rs2 => ?_⟩
  have hlink : (s.setReg rd (linkValue s)).reg rd = linkValue s := s.reg_setReg_self rd _
  refine ⟨_, rfl, ?_, fun r hr => ?_, fun h => ?_, fun h => ?_, fun _ => rfl, ⟨rfl, rfl⟩, rfl⟩
  · rw [State.setPc_reg, hlink, linkValue_toNat]
  · rw [State.setPc_reg, State.reg_setReg_other s rd r _ hr]
  · rw [State.setPc_pc, State.setPc_reg, hlink, jalrTarget_afterLink h, State.reg_setReg]
  · rw [State.setPc_pc, jalrTarget_beforeLink h]

/-! ## Arithmetic and comparison (rules R121 to R124) -/

/-- Settles O11: the sum of 16-bit words is the sum modulo 2^16. -/
theorem addResult : Obligations.AddResult := by
  unfold Obligations.AddResult
  exact ⟨spells_reg (o := .add) (by decide), fun s rd rs2 => writesReg_of_exec rfl (BitVec.toNat_add _ _)⟩

/-- Settles O12: the difference of 16-bit words is the integer difference modulo 2^16. -/
theorem subResult : Obligations.SubResult := by
  unfold Obligations.SubResult
  exact ⟨spells_reg (o := .sub) (by decide), fun s rd rs2 => writesReg_of_exec rfl (sub_toNat _ _)⟩

/-- Settles O13: the model's comparisons are those of the two's complement and of the unsigned values. -/
theorem setLessRegResult : Obligations.SetLessRegResult := by
  unfold Obligations.SetLessRegResult
  refine ⟨spells_reg (o := .slt) (by decide), spells_reg (o := .sltu) (by decide),
    fun s rd rs2 => ?_, fun s rd rs2 => ?_⟩
  · exact writesReg_of_exec rfl (boolWord_ltSigned _ _)
  · exact writesReg_of_exec rfl (boolWord_ltUnsigned _ _)

/-! ## Shifts and bitwise operations (rules R125 to R130) -/

/-- Settles O14: the amount is x[rs2] mod 16, and a shift by it multiplies or divides by its power of two. -/
theorem shiftRegResult : Obligations.ShiftRegResult := by
  unfold Obligations.ShiftRegResult
  refine ⟨spells_reg (o := .sll) (by decide), spells_reg (o := .srl) (by decide), spells_reg (o := .sra) (by decide),
    fun s rd rs2 => ?_, fun s rd rs2 => ?_, fun s rd rs2 => ?_⟩ <;> rw [← shiftAmount_eq]
  · exact writesReg_of_exec rfl (shiftLeft_toNat _ _)
  · exact writesReg_of_exec rfl (ushiftRight_toNat _ _)
  · exact writesReg_of_exec rfl (sshiftRight_toInt _ _)

/-- Settles O15: the bitwise operations act on each bit alone. -/
theorem logicRegResult : Obligations.LogicRegResult := by
  unfold Obligations.LogicRegResult
  refine ⟨spells_reg (o := .or) (by decide), spells_reg (o := .and) (by decide), spells_reg (o := .xor) (by decide),
    fun s rd rs2 => ?_, fun s rd rs2 => ?_, fun s rd rs2 => ?_⟩
  · exact writesReg_of_exec rfl fun _ _ => BitVec.getLsbD_or
  · exact writesReg_of_exec rfl fun _ _ => BitVec.getLsbD_and
  · exact writesReg_of_exec rfl fun _ _ => BitVec.getLsbD_xor

/-! ## mv and jr (rules R131, R132) -/

/-- Settles O16: what mv writes is the old x[rs2]. -/
theorem mvResult : Obligations.MvResult := by
  unfold Obligations.MvResult
  exact ⟨spells_reg (o := .mv) (by decide), fun s rd rs2 => writesReg_of_exec rfl rfl⟩

/-- Settles O17: jr replaces the pc alone, and its instruction has no rs2. -/
theorem jrResult : Obligations.JrResult := by
  unfold Obligations.JrResult
  exact ⟨spells_reg (o := .jr) (by decide),
    fun s rd => ⟨s.setPc (s.reg rd), rfl, rfl, fun _ => rfl, fun _ => rfl, ⟨rfl, rfl⟩, rfl⟩⟩

end Sys2Proof.Machine
end

section
/-! PROOFS. The Imm instructions (rules R140 to R150). -/

namespace Sys2Proof.Machine

/-- The 7-bit immediate an operation outside the shift group takes: zero-extended for sltui, else sign-extended
(rules R64, R79). -/
def immOperand (o : ImmOp) (w : Word) : Word :=
  if o = .sltui then BitVec.ofNat 16 (imm7Nat w) else sextNat 7 (imm7Nat w)

theorem decodeImm_eq_immOperand {t : Tables} {w : Word} {o : ImmOp} (h : SelectedBy t w (.imm o)) :
    decodeImm t w = immOperand o w := by
  rw [decodeImm_of_immOp h, immUnsigned_eq, immSigned_eq, immOperand]

/-- Under the default tables a word that matches an Imm row spells the row's operation on its rd_rs1 and its
immediate. -/
theorem spells_imm {p : Word} {o : ImmOp} (h : (p, 0x003F, .imm o) ∈ opcodeRows) :
    Spells defaultTables p 0x003F fun w => immInstr { decode defaultTables w with imm := immOperand o w } o := by
  intro w hw
  have hs : SelectedBy defaultTables w (.imm o) := (selectedBy_iff_match (opRow_of_mem _ h)).2 hw
  exact decodeWord_of_operands hs rfl rfl (decodeImm_eq_immOperand hs) rfl rfl

/-- Under the default tables a word that matches a shift row spells the row's operation on its rd_rs1 and its
amount. -/
theorem spells_shift {p : Word} {o : ShiftOp} (h : (p, 0xE03F, .shift o) ∈ opcodeRows) :
    Spells defaultTables p 0xE03F fun w => shiftInstr (decode defaultTables w) o :=
  spells_of_mem h fun _ => rfl

/-! ## Arithmetic and comparison (rules R141 to R143) -/

/-- The sum of words is the one's unsigned value plus the other's signed one, modulo 2^16: the two values of a word
differ by a multiple of 2^16. -/
theorem toNat_add_toInt (a b : Word) : ((a + b).toNat : Int) = ((a.toNat : Int) + b.toInt) % 65536 := by
  rw [BitVec.toNat_add, BitVec.toInt_eq_toNat_cond]
  split <;> omega

/-- Settles O19: adding the extended immediate as a word adds its signed value modulo 2^16. -/
theorem addiResult : Obligations.AddiResult := by
  unfold Obligations.AddiResult
  exact ⟨spells_imm (o := .addi) (by decide), fun s rd imm => writesReg_of_exec rfl (toNat_add_toInt _ _)⟩

/-- Settles O20: the comparisons are slt's and sltu's, and only sltui's immediate is zero-extended. -/
theorem setLessImmResult : Obligations.SetLessImmResult := by
  unfold Obligations.SetLessImmResult
  refine ⟨spells_imm (o := .slti) (by decide), spells_imm (o := .sltui) (by decide),
    fun s rd imm => ?_, fun s rd imm => ?_⟩
  · exact writesReg_of_exec rfl (boolWord_ltSigned _ _)
  · exact writesReg_of_exec rfl (boolWord_ltUnsigned _ _)

/-! ## Shifts and bitwise operations (rules R144 to R149) -/

/-- Settles O21: a shift by the encoded amount multiplies or divides by its power of two. -/
theorem shiftImmResult : Obligations.ShiftImmResult := by
  unfold Obligations.ShiftImmResult
  refine ⟨spells_shift (o := .slli) (by decide), spells_shift (o := .srli) (by decide),
    spells_shift (o := .srai) (by decide), fun s rd n => ?_, fun s rd n => ?_, fun s rd n => ?_⟩
  · exact writesReg_of_exec rfl (shiftLeft_toNat _ _)
  · exact writesReg_of_exec rfl (ushiftRight_toNat _ _)
  · exact writesReg_of_exec rfl (sshiftRight_toInt _ _)

/-- Settles O22: the bitwise operations act on each bit of the register and of the extended immediate alone. -/
theorem logicImmResult : Obligations.LogicImmResult := by
  unfold Obligations.LogicImmResult
  refine ⟨spells_imm (o := .ori) (by decide), spells_imm (o := .andi) (by decide), spells_imm (o := .xori) (by decide),
    fun s rd imm => ?_, fun s rd imm => ?_, fun s rd imm => ?_⟩
  · exact writesReg_of_exec rfl fun _ _ => BitVec.getLsbD_or
  · exact writesReg_of_exec rfl fun _ _ => BitVec.getLsbD_and
  · exact writesReg_of_exec rfl fun _ _ => BitVec.getLsbD_xor

/-! ## li (rule R150) -/

/-- Settles O23: what li writes is the immediate, whatever rd held. -/
theorem liResult : Obligations.LiResult := by
  unfold Obligations.LiResult
  exact ⟨spells_imm (o := .li) (by decide), fun s rd imm => writesReg_of_exec rfl rfl⟩

end Sys2Proof.Machine
end

section
/-! PROOFS. The Branch instructions (rules R160 to R168). -/

namespace Sys2Proof.Machine

/-- Under the default tables a word that matches a Branch row spells the row's operation on its rs1, its rs2 where the
operation has one, and its displacement. -/
theorem spells_branch {p : Word} {o : BranchOp} (h : (p, 0x003F, .branch o) ∈ opcodeRows) :
    Spells defaultTables p 0x003F fun w => branchInstr { decode defaultTables w with imm := branchDisp w } o := by
  intro w hw
  have hs : SelectedBy defaultTables w (.branch o) := (selectedBy_iff_match (opRow_of_mem _ h)).2 hw
  exact decodeWord_of_operands hs rfl rfl ((decodeImm_of_branch hs.1).trans (branchImm_eq w)) rfl rfl

/-! ## The common form (rule R160) -/

/-- Taken or not, a branch is one pc-relative move, so it leaves whatever `movePc` leaves. -/
theorem branchIf_eq_movePc (c : Bool) (imm : Word) (s : State) :
    branchIf c imm s = .next (s.movePc (if c then imm.toInt else 2)) := by
  cases c <;> rfl

/-- An instruction that branches on `c` branches on the condition `c` decides. -/
theorem branchesOn_of_exec {i : Instr} {s : State} {c : Bool} {cond : Prop} {imm : Word}
    (he : exec i s = branchIf c imm s) (hc : c = true ↔ cond) : BranchesOn i s cond imm := by
  refine ⟨_, he.trans (branchIf_eq_movePc c imm s), s.movePc_reg _, fun a => ?_, ⟨s.movePc_out _, s.movePc_cfg _⟩,
    fun h => ?_, fun h => ?_⟩
  · rw [State.movePc_mem]
  · rw [if_pos (hc.2 h)]
    exact s.movePc_pcMoved _
  · rw [if_neg (mt hc.1 h)]
    exact s.movePc_pcMoved _

/-! ## The conditions, as numbers -/

theorem condBeq_iff (a b : Word) : condBeq a b = true ↔ a.toNat = b.toNat :=
  decide_eq_true_iff.trans BitVec.toNat_inj.symm

theorem condBne_iff (a b : Word) : condBne a b = true ↔ a.toNat ≠ b.toNat :=
  Bool.not_iff_not.trans (not_congr (condBeq_iff a b))

theorem condBz_iff (a : Word) : condBz a = true ↔ a.toNat = 0 := condBeq_iff a 0

theorem condBnz_iff (a : Word) : condBnz a = true ↔ a.toNat ≠ 0 := condBne_iff a 0

theorem condBlt_iff (a b : Word) : condBlt a b = true ↔ a.toInt < b.toInt := BitVec.slt_iff_toInt_lt

theorem condBge_iff (a b : Word) : condBge a b = true ↔ a.toInt ≥ b.toInt :=
  Bool.not_iff_not.trans ((not_congr (condBlt_iff a b)).trans Int.not_lt)

theorem condBltu_iff (a b : Word) : condBltu a b = true ↔ a.toNat < b.toNat := BitVec.ult_iff_toNat_lt

theorem condBgeu_iff (a b : Word) : condBgeu a b = true ↔ a.toNat ≥ b.toNat :=
  Bool.not_iff_not.trans ((not_congr (condBltu_iff a b)).trans Nat.not_lt)

/-! ## The eight branches (rules R161 to R168) -/

/-- Settles O24: words are equal when their numbers are, and bne's condition is the negation of beq's. -/
theorem equalBranchesResult : Obligations.EqualBranchesResult := by
  unfold Obligations.EqualBranchesResult
  refine ⟨spells_branch (o := .beq) (by decide), spells_branch (o := .bne) (by decide),
    fun s rs1 rs2 imm => ?_, fun s rs1 rs2 imm => ?_⟩
  · exact branchesOn_of_exec rfl (condBeq_iff _ _)
  · exact branchesOn_of_exec rfl (condBne_iff _ _)

/-- Settles O25: bz compares with 0, bnz is its negation, and the instruction of neither has an rs2. -/
theorem zeroBranchesResult : Obligations.ZeroBranchesResult := by
  unfold Obligations.ZeroBranchesResult
  refine ⟨spells_branch (o := .bz) (by decide), spells_branch (o := .bnz) (by decide),
    fun s rs1 imm => ?_, fun s rs1 imm => ?_⟩
  · exact branchesOn_of_exec rfl (condBz_iff _)
  · exact branchesOn_of_exec rfl (condBnz_iff _)

/-- Settles O26: blt compares the two's complement values, and bge's condition is the negation of blt's. -/
theorem signedBranchesResult : Obligations.SignedBranchesResult := by
  unfold Obligations.SignedBranchesResult
  refine ⟨spells_branch (o := .blt) (by decide), spells_branch (o := .bge) (by decide),
    fun s rs1 rs2 imm => ?_, fun s rs1 rs2 imm => ?_⟩
  · exact branchesOn_of_exec rfl (condBlt_iff _ _)
  · exact branchesOn_of_exec rfl (condBge_iff _ _)

/-- Settles O27: bltu compares the unsigned values, and bgeu's condition is the negation of bltu's. -/
theorem unsignedBranchesResult : Obligations.UnsignedBranchesResult := by
  unfold Obligations.UnsignedBranchesResult
  refine ⟨spells_branch (o := .bltu) (by decide), spells_branch (o := .bgeu) (by decide),
    fun s rs1 rs2 imm => ?_, fun s rs1 rs2 imm => ?_⟩
  · exact branchesOn_of_exec rfl (condBltu_iff _ _)
  · exact branchesOn_of_exec rfl (condBgeu_iff _ _)

end Sys2Proof.Machine
end

section
/-! PROOFS. The Store and Load instructions (rules R170 to R175). -/

namespace Sys2Proof.Machine

/-- Under the default tables a word that matches a Store row spells the row's operation on its source, its base and its
offset. -/
theorem spells_store {p : Word} {o : StoreOp} (h : (p, 0x003F, .store o) ∈ opcodeRows) :
    Spells defaultTables p 0x003F fun w => storeInstr { decode defaultTables w with imm := memOffset w } o := by
  intro w hw
  have hs : SelectedBy defaultTables w (.store o) := (selectedBy_iff_match (opRow_of_mem _ h)).2 hw
  exact decodeWord_of_operands hs rfl rfl ((decodeImm_of_store hs.1).trans (offsetImm_eq w)) rfl rfl

/-- Under the default tables a word that matches a Load row spells the row's operation on its rd, its base and its
offset. -/
theorem spells_load {p : Word} {o : LoadOp} (h : (p, 0x003F, .load o) ∈ opcodeRows) :
    Spells defaultTables p 0x003F fun w => loadInstr { decode defaultTables w with imm := memOffset w } o := by
  intro w hw
  have hs : SelectedBy defaultTables w (.load o) := (selectedBy_iff_match (opRow_of_mem _ h)).2 hw
  exact decodeWord_of_operands hs rfl rfl ((decodeImm_of_load hs.1).trans (offsetImm_eq w)) rfl rfl

/-! ## The five instructions as accesses -/

theorem exec_sb (src base : RegIdx) (imm : Word) (s : State) :
    exec (.sb src base imm) s = storeOp 1 (fun m a => m.write a (loByte (s.reg src))) base imm s := rfl

theorem exec_sw (src base : RegIdx) (imm : Word) (s : State) :
    exec (.sw src base imm) s = storeOp 2 (fun m a => m.writeWord a (s.reg src)) base imm s := rfl

theorem exec_lb (rd base : RegIdx) (imm : Word) (s : State) :
    exec (.lb rd base imm) s = loadOp 1 (fun m a => (m.read a).signExtend 16) rd base imm s := rfl

theorem exec_lw (rd base : RegIdx) (imm : Word) (s : State) :
    exec (.lw rd base imm) s = loadOp 2 Memory.readWord rd base imm s := rfl

theorem exec_lbu (rd base : RegIdx) (imm : Word) (s : State) :
    exec (.lbu rd base imm) s = loadOp 1 (fun m a => (m.read a).zeroExtend 16) rd base imm s := rfl

/-! ## The access that is turned away (rules R44, R201) -/

/-- A fault that records a word records the one at the pc, and changes nothing else. -/
theorem State.raiseFault_faultsWith {s : State} {c : FaultCause} (h : faultWord s c = some s.instrWord) :
    FaultsWith s (s.raiseFault c) c :=
  ⟨s.instrWord, (fetchedWord_iff s _).2 rfl, by rw [State.raiseFault, h]⟩

section
variable {i : Instr} {s : State} {n : Nat} {rd base : RegIdx} {imm : Word} {put : Memory → Nat → Memory}
  {get : Memory → Nat → Word}

theorem accessAddress_of_not_eaOk (h : ¬EaOk s base imm n) : accessAddress s base imm n = none := if_neg h

/-- A store at an address the bounds check turns away faults. -/
theorem faults_of_exec_store (he : exec i s = storeOp n put base imm s) (h : ¬EaOk s base imm n) :
    ∃ t, exec i s = .next t ∧ FaultsWith s t .addressingFault :=
  ⟨_, by rw [he, storeOp, accessAddress_of_not_eaOk h], State.raiseFault_faultsWith rfl⟩

/-- A load at an address the bounds check turns away faults. -/
theorem faults_of_exec_load (he : exec i s = loadOp n get rd base imm s) (h : ¬EaOk s base imm n) :
    ∃ t, exec i s = .next t ∧ FaultsWith s t .addressingFault :=
  ⟨_, by rw [he, loadOp, accessAddress_of_not_eaOk h], State.raiseFault_faultsWith rfl⟩

/-! ## The access that is admitted -/

/-- A store at an admitted address completes: memory is what `put` makes of it, and nothing else but the pc changes. -/
theorem stores_of_exec (he : exec i s = storeOp n put base imm s) (h : EaOk s base imm n) :
    ∃ (a : Nat) (t : State), eaInt s base imm = a ∧ a + n - 1 < 65536 ∧ exec i s = .next t ∧ t.mem = put s.mem a ∧
      RegsSame s t ∧ QuietSame s t ∧ PcMoved s t 2 := by
  obtain ⟨a, ha⟩ := Int.eq_ofNat_of_zero_le h.1
  have hn : a + n - 1 < 65536 := by omega
  have hx : exec i s = .next (s.setMem (put s.mem a)).advance := by rw [he, storeOp, accessAddress_of_eaInt ha hn]
  refine ⟨a, _, ha, hn, hx, ?_, fun r => ?_, ⟨?_, ?_⟩, (s.setMem (put s.mem a)).movePc_pcMoved 2⟩
  · rw [State.advance_eq, State.movePc_mem, State.setMem_mem]
  · rw [State.advance_eq, State.movePc_reg, State.setMem_reg]
  · rw [State.advance_eq, State.movePc_out, State.setMem_out]
  · rw [State.advance_eq, State.movePc_cfg, State.setMem_cfg]

/-- A load at an admitted address writes what `get` reads there to `rd`. -/
theorem writesReg_of_exec_load {P : Word → Prop} {a : Nat} (he : exec i s = loadOp n get rd base imm s)
    (h : EaOk s base imm n) (ha : (a : Int) = eaInt s base imm) (hv : P (get s.mem a)) : WritesReg i s rd P := by
  have hn : a + n - 1 < 65536 := by omega
  exact writesReg_of_exec (by rw [he, loadOp, accessAddress_of_eaInt ha.symm hn]) hv

end

/-! ## The stores (rules R171, R172) -/

/-- Settles O28: the address the check admits is the byte `Memory.write` replaces. -/
theorem sbResult : Obligations.SbResult := by
  unfold Obligations.SbResult
  refine ⟨spells_store (o := .sb) (by decide), fun s src base imm hs hok => ?_,
    fun s src base imm hno => faults_of_exec_store (exec_sb src base imm s) hno⟩
  obtain ⟨k, t, hk, -, he, hm, hframe⟩ := stores_of_exec (exec_sb src base imm s) hok
  have hread (a : Nat) : t.mem.read a = if a = k then loByte (s.reg src) else s.mem.read a := by
    rw [hm, Memory.read_write _ _ _ _ hs]
  refine ⟨t, he, fun a ha => ?_, fun a ha => ?_, hframe⟩
  · rw [hread, if_pos (by omega), loByte_toNat]
  · rw [hread, if_neg (by omega)]

/-- Settles O29: the address the check admits and the one after it are the bytes `Memory.writeWord` replaces. -/
theorem swResult : Obligations.SwResult := by
  unfold Obligations.SwResult
  refine ⟨spells_store (o := .sw) (by decide), fun s src base imm hs hok => ?_,
    fun s src base imm hno => faults_of_exec_store (exec_sw src base imm s) hno⟩
  obtain ⟨k, t, hk, hlt, he, hm, hframe⟩ := stores_of_exec (exec_sw src base imm s) hok
  have hread (a : Nat) : t.mem.read a =
      if a = k + 1 then hiByte (s.reg src) else if a = k then loByte (s.reg src) else s.mem.read a := by
    rw [hm, Memory.read_writeWord _ _ _ _ hs (by omega)]
  refine ⟨t, he, fun a ha => ?_, fun a ha => ?_, fun a hlo hhi => ?_, hframe⟩
  · rw [hread, if_neg (by omega), if_pos (by omega), loByte_toNat]
  · rw [hread, if_pos (by omega), hiByte_toNat]
  · rw [hread, if_neg (by omega), if_neg (by omega)]

/-! ## The loads (rules R173 to R175) -/

/-- Settles O30: sign extension keeps a byte's signed value, zero extension its unsigned one. -/
theorem lbLbuResult : Obligations.LbLbuResult := by
  unfold Obligations.LbLbuResult
  refine ⟨spells_load (o := .lb) (by decide), spells_load (o := .lbu) (by decide),
    fun s rd base imm hok a ha => ?_, fun s rd base imm hok a ha => ?_,
    fun s rd base imm hno => faults_of_exec_load (exec_lb rd base imm s) hno,
    fun s rd base imm hno => faults_of_exec_load (exec_lbu rd base imm s) hno⟩
  · exact writesReg_of_exec_load (exec_lb rd base imm s) hok ha (BitVec.toInt_signExtend_of_le (by decide))
  · exact writesReg_of_exec_load (exec_lbu rd base imm s) hok ha (BitVec.toNat_setWidth_of_le (by decide))

/-- Settles O31: the word at the admitted address is made of its two bytes, the low one first. -/
theorem lwResult : Obligations.LwResult := by
  unfold Obligations.LwResult
  exact ⟨spells_load (o := .lw) (by decide),
    fun s rd base imm hok a ha => writesReg_of_exec_load (exec_lw rd base imm s) hok ha (s.mem.readWord_toNat a),
    fun s rd base imm hno => faults_of_exec_load (exec_lw rd base imm s) hno⟩

end Sys2Proof.Machine
end

section
/-! PROOFS. The Jump and Upper instructions (rules R180 to R185). -/

namespace Sys2Proof.Machine

/-! ## The jumps (rules R181, R182) -/

/-- Settles O32: j is one pc-relative move, and its instruction has no rd. -/
theorem jResult : Obligations.JResult := by
  unfold Obligations.JResult
  refine ⟨fun t w hw => ?_, fun s imm => ?_⟩
  · rw [decodeWord_of_j (selectedBy_j_iff.2 hw), jumpImm_eq]
  · refine ⟨_, rfl, s.movePc_pcMoved _, s.movePc_reg _, fun a => ?_, s.movePc_out _, s.movePc_cfg _⟩
    rw [State.movePc_mem]

/-- Settles O33: the move leaves the link in rd, and the link's write leaves the pc the move starts from. -/
theorem jalResult : Obligations.JalResult := by
  unfold Obligations.JalResult
  refine ⟨fun t w hw => ?_, fun s rd imm => ?_⟩
  · have hs : SelectedBy t w .jal := selectedBy_jal_iff.2 hw
    exact decodeWord_of_operands hs rfl rfl ((decodeImm_of_jump hs.1).trans (jumpImm_eq w)) rfl rfl
  · refine ⟨_, rfl, ?_, fun r hr => ?_, (s.setReg rd (linkValue s)).movePc_pcMoved imm.toInt, fun a => ?_, ?_, ?_⟩
    · rw [State.movePc_reg, State.reg_setReg_self, linkValue_toNat]
    · rw [State.movePc_reg, State.reg_setReg_other s rd r _ hr]
    · rw [State.movePc_mem, State.setReg_mem]
    · rw [State.movePc_out, State.setReg_out]
    · rw [State.movePc_cfg, State.setReg_cfg]

/-! ## lui and auipc (rules R184, R185) -/

/-- An Upper word's immediate is the same under any tables (rule R69). -/
theorem decodeImm_eq_upperValue {t : Tables} {w : Word} (h : formatOf (opcodeField w) = .upper) :
    decodeImm t w = upperValue w :=
  (decodeImm_of_upper h).trans (upperImm_eq w)

/-- The upper immediate ends in seven zero bits (rule R69). -/
theorem upperValue_mod (w : Word) : (upperValue w).toNat % 128 = 0 := by
  rw [← upperImm_eq]
  exact of_decide_eq_true (upperImm_ok w)

/-- Settles O34: what lui writes is the immediate, whatever rd held. -/
theorem luiResult : Obligations.LuiResult := by
  unfold Obligations.LuiResult
  refine ⟨fun t w hw => ?_, upperValue_mod, fun s rd imm => writesReg_of_exec rfl rfl⟩
  have hs : SelectedBy t w .lui := selectedBy_lui_iff.2 hw
  exact decodeWord_of_operands hs rfl rfl (decodeImm_eq_upperValue hs.1) rfl rfl

/-- Settles O35: the sum of the instruction's own pc and the immediate is the sum modulo 2^16. -/
theorem auipcResult : Obligations.AuipcResult := by
  unfold Obligations.AuipcResult
  refine ⟨fun t w hw => ?_, fun s rd imm => writesReg_of_exec rfl (BitVec.toNat_add _ _)⟩
  have hs : SelectedBy t w .auipc := selectedBy_auipc_iff.2 hw
  exact decodeWord_of_operands hs rfl rfl (decodeImm_eq_upperValue hs.1) rfl rfl

end Sys2Proof.Machine
end

section
/-! PROOFS. The System instruction (rules R190 to R194). -/

namespace Sys2Proof.Machine

/-! ## The service that runs (rule R190) -/

theorem ne_haltSvcNumber_iff {svc : BitVec 10} {h : HaltSvc} :
    svc ≠ haltSvcNumber h ↔ (h = .svc3 → svc ≠ 3) ∧ (h = .svc3FF → svc ≠ 0x3FF) := by
  cases h <;> simp [haltSvcNumber]

theorem exec_ecall (svc : BitVec 10) (s : State) : exec (.ecall svc) s = execEcall svc s := rfl

theorem exec_ecall_halt {s : State} {h : HaltSvc} (hs : s.cfg.haltSvc = h) :
    exec (.ecall (haltSvcNumber h)) s = .next (haltService s) := by
  rw [exec_ecall, execEcall, if_pos (congrArg haltSvcNumber hs.symm)]

/-- Service 1 prints, since neither value of `HALT_SVC` is 1. -/
theorem exec_ecall_printInt (s : State) : exec (.ecall 1) s = .next (printIntService s) := by
  have hne : (1 : BitVec 10) ≠ haltSvcNumber s.cfg.haltSvc :=
    ne_haltSvcNumber_iff.2 ⟨fun _ => by decide, fun _ => by decide⟩
  rw [exec_ecall, execEcall, if_neg hne, if_pos rfl]

/-- Service 5 prints, since neither value of `HALT_SVC` is 5. -/
theorem exec_ecall_printStr (s : State) : exec (.ecall 5) s = .next (printStrService s) := by
  have hne : (5 : BitVec 10) ≠ haltSvcNumber s.cfg.haltSvc :=
    ne_haltSvcNumber_iff.2 ⟨fun _ => by decide, fun _ => by decide⟩
  rw [exec_ecall, execEcall, if_neg hne, if_neg (by decide), if_pos rfl]

theorem exec_ecall_undefined {svc : BitVec 10} {s : State} (h1 : svc ≠ 1) (h5 : svc ≠ 5)
    (hh : svc ≠ haltSvcNumber s.cfg.haltSvc) : exec (.ecall svc) s = .next s.unimplemented := by
  rw [exec_ecall, execEcall, if_neg hh, if_neg h1, if_neg h5]

/-! ## What is reported, and the next pc (rules R106, R203) -/

/-- To emit an event and go on appends the event, moves the pc by 2, and changes nothing else. -/
theorem State.emit_advance_frame (s : State) (e : Event) :
    (s.emit e).advance.out = s.out ++ [e] ∧ PcMoved s (s.emit e).advance 2 ∧ RegsSame s (s.emit e).advance ∧
      MemSame s (s.emit e).advance ∧ (s.emit e).advance.cfg = s.cfg :=
  ⟨by simp, (s.emit e).movePc_pcMoved 2, fun r => by simp, fun a => by simp, by simp⟩

@[simp] theorem State.unimplemented_out (s : State) :
    s.unimplemented.out = s.out ++ [.unimplemented s.pc s.instrWord] := by
  rcases s.unimplemented_cases with ⟨-, h⟩ | ⟨-, h⟩ <;> simp [h]

@[simp] theorem State.unimplemented_cfg (s : State) : s.unimplemented.cfg = s.cfg := by
  rcases s.unimplemented_cases with ⟨-, h⟩ | ⟨-, h⟩ <;> simp [h]

/-- Under the policy `fault` the unimplemented operation keeps the pc and faults with its word. -/
theorem State.unimplemented_faults {s : State} (hp : s.cfg.unimplPolicy = .fault) :
    s.unimplemented.pc = s.pc ∧
      s.unimplemented.status = .faulted .unimplementedOperation s.pc (some s.instrWord) := by
  rw [State.unimplemented, hp]
  exact ⟨rfl, rfl⟩

/-- Under the policy `continues` the unimplemented operation moves to the next instruction. -/
theorem State.unimplemented_pcMoved {s : State} (hp : s.cfg.unimplPolicy = .continues) :
    PcMoved s s.unimplemented 2 := by
  rw [State.unimplemented, hp]
  exact State.movePc_pcMoved (s.emit _) 2

/-! ## Strings (rule R192) -/

theorem byte_toNat_eq_zero_iff {b : Byte} : b.toNat = 0 ↔ b = 0 := BitVec.toNat_inj (y := 0)

section
variable {m : Memory} {a n : Nat}

/-- There is no string exactly where no byte up to the end of memory is zero. -/
theorem stringAt_eq_none_iff : stringAt m a = none ↔ ∀ b, a ≤ b → b < 65536 → (m.read b).toNat ≠ 0 := by
  constructor
  · intro h b hab hb
    have hne := scanString_none m _ a h (b - a) (by omega)
    rw [Nat.add_sub_cancel' hab] at hne
    exact mt byte_toNat_eq_zero_iff.1 hne
  · intro h
    cases hs : stringAt m a with
    | none => rfl
    | some bs =>
      obtain ⟨hlt, h0, -⟩ := scanString_some m _ a bs hs
      exact absurd (byte_toNat_eq_zero_iff.2 h0) (h _ (by omega) (by omega))

/-- Where the first zero byte is `n` bytes on, the string is the `n` bytes before it. -/
theorem exists_stringAt (hn : a + n < 65536) (h0 : (m.read (a + n)).toNat = 0)
    (hne : ∀ k < n, (m.read (a + k)).toNat ≠ 0) :
    ∃ bs, stringAt m a = some bs ∧ bs.length = n ∧ ∀ k < n, bs[k]? = some (m.read (a + k)) := by
  cases hs : stringAt m a with
  | none => exact absurd h0 (stringAt_eq_none_iff.1 hs _ (Nat.le_add_right a n) hn)
  | some bs =>
    obtain ⟨-, hzero, hbytes⟩ := scanString_some m _ a bs hs
    have hlen : bs.length = n := by
      rcases Nat.lt_trichotomy bs.length n with hlt | heq | hgt
      · exact absurd (byte_toNat_eq_zero_iff.2 hzero) (hne _ hlt)
      · exact heq
      · exact absurd (byte_toNat_eq_zero_iff.1 h0) (hbytes n hgt).2
    exact ⟨bs, rfl, hlen, fun k hk => (hbytes k (hlen ▸ hk)).1⟩

end

theorem printStrService_of_some {s : State} {bs : List Byte} (h : stringAt s.mem (s.reg a0).toNat = some bs) :
    printStrService s = (s.emit (.printStr bs)).advance := by
  rw [printStrService, h]

theorem printStrService_of_none {s : State} (h : stringAt s.mem (s.reg a0).toNat = none) :
    printStrService s = s.raiseFault .unterminatedString := by
  rw [printStrService, h]

/-! ## The services (rules R191 to R194) -/

/-- Settles O38: the string found is the bytes before the first zero byte, and none is found where there is no such
byte. -/
theorem ecallPrintsString : Obligations.EcallPrintsString := by
  unfold Obligations.EcallPrintsString
  refine ⟨fun s n hn h0 hne => ?_, fun s hne => ?_⟩
  · obtain ⟨bs, hs, hlen, hbytes⟩ := exists_stringAt hn h0 hne
    obtain ⟨hout, hframe⟩ := s.emit_advance_frame (.printStr bs)
    exact ⟨_, bs, by rw [exec_ecall_printStr, printStrService_of_some hs], hout, hlen, hbytes, hframe⟩
  · exact ⟨_, by rw [exec_ecall_printStr, printStrService_of_none (stringAt_eq_none_iff.2 hne)],
      State.raiseFault_faultsWith rfl⟩

/-- Settles O40: a service that is none of the three is the unimplemented operation, which tells the word at the pc. -/
theorem undefinedServiceByPolicy : Obligations.UndefinedServiceByPolicy := by
  unfold Obligations.UndefinedServiceByPolicy
  intro s svc h1 h5 h3 h3FF
  exact ⟨s.unimplemented, s.instrWord, exec_ecall_undefined h1 h5 (ne_haltSvcNumber_iff.2 ⟨h3, h3FF⟩),
    (fetchedWord_iff s _).2 rfl, s.unimplemented_out, s.unimplemented_reg, fun a => by rw [s.unimplemented_mem],
    s.unimplemented_cfg, State.unimplemented_faults, State.unimplemented_pcMoved⟩

/-- Settles O37: the service emits a0's value and goes on, and what is shown for it is its two's complement value. -/
theorem ecallPrintsInteger : Obligations.EcallPrintsInteger := by
  unfold Obligations.EcallPrintsInteger
  refine ⟨fun s => ⟨_, exec_ecall_printInt s, s.emit_advance_frame _⟩, fun v => ?_⟩
  rw [printedInt, BitVec.toInt_eq_toNat_cond]
  omega

/-- Settles O39: under each value of `HALT_SVC` its number runs the halt service, which sets the status alone. -/
theorem ecallHalts : Obligations.EcallHalts := by
  unfold Obligations.EcallHalts
  exact ⟨rfl, fun s h => exec_ecall_halt h, fun s h => exec_ecall_halt h, fun s => step_of_halted rfl⟩

end Sys2Proof.Machine
end

section
/-! PROOFS. A fetched UNIMPL word (rules R109, R203). -/

namespace Sys2Proof.Machine

/-- Settles O44: the step traces the word and runs the unimplemented operation, which reads the word, the pc and the
parameters as the fetch did. -/
theorem unimplementedWordByPolicy : Obligations.UnimplementedWordByPolicy := by
  unfold Obligations.UnimplementedWordByPolicy
  intro s w r hf hw hd
  obtain ⟨hr, he, ho⟩ := checks_of_fetches hf
  obtain rfl := (fetchedWord_iff s w).1 hw
  have hout : (s.emit s.fetchTrace).unimplemented.out = s.out ++ [s.fetchTrace, .unimplemented s.pc s.instrWord] :=
    (State.unimplemented_out _).trans (List.append_assoc ..)
  exact ⟨_, step_of_unimpl s hr he ho r hd, hout, State.unimplemented_reg _,
    fun a => by rw [State.unimplemented_mem, State.emit_mem], State.unimplemented_cfg _,
    State.unimplemented_faults (s := s.emit _), State.unimplemented_pcMoved (s := s.emit _)⟩

end Sys2Proof.Machine
end

section
/-! PROOFS. Faults (rules R201, R202): a step or an instruction that faults has one of the listed sources, and changes
the status and the output stream alone. -/

namespace Sys2Proof.Machine

/-- What makes the instruction `i` fault in the state `s`, by the cause it raises (rule R202). -/
inductive InstrFaultSource (i : Instr) (s : State) : FaultCause → Prop
  /-- An access that the bounds check turns away (rule R44). -/
  | access (base : RegIdx) (imm : Word) (n : Int) (hi : memAccess i = some (base, imm, n)) (hea : ¬EaOk s base imm n) :
      InstrFaultSource i s .addressingFault
  /-- A string without a terminator (rule R192). -/
  | string (hi : i = .ecall 5) (hs : stringAt s.mem (s.reg a0).toNat = none) : InstrFaultSource i s .unterminatedString
  /-- A service that does not exist (rule R194). -/
  | service (svc : BitVec 10) (hi : i = .ecall svc) (h1 : svc ≠ 1) (h5 : svc ≠ 5)
      (hh : svc ≠ haltSvcNumber s.cfg.haltSvc) (hp : s.cfg.unimplPolicy = .fault) :
      InstrFaultSource i s .unimplementedOperation

/-- What makes the step from `s` fault, by the cause it raises (rules R202, R205). -/
inductive StepFaultSource (s : State) : FaultCause → Prop
  /-- An odd pc under `ODD_FETCH = fault` (rule R103). -/
  | misaligned (ho : s.pc.toNat % 2 = 1) (hp : s.cfg.oddFetch = .fault) : StepFaultSource s .misalignedFetch
  /-- An UNIMPL word (rules R109, R203). -/
  | word (r : UnimplReason) (hd : decodeWord s.cfg.tables s.instrWord = .error r) (hp : s.cfg.unimplPolicy = .fault) :
      StepFaultSource s .unimplementedOperation
  /-- The decoded instruction. -/
  | instr (i : Instr) (c : FaultCause) (hd : decodeWord s.cfg.tables s.instrWord = .ok i)
      (hi : InstrFaultSource i s c) : StepFaultSource s c

/-- `t` is not FAULTED, or it is `s` with a fault raised whose cause has a source, and with some output stream. -/
def FaultsOnlyBy (source : FaultCause → Prop) (s t : State) : Prop :=
  endedAbnormally t.status = false ∨ ∃ c o, source c ∧ t = (s.raiseFault c).withOut o

section
variable {source : FaultCause → Prop} {s t : State}

/-- A move of the pc completes or halts, and never faults (rule R108). -/
theorem FaultsOnlyBy.of_movePc {u : State} {off : Int} (hu : u.status = .running) :
    FaultsOnlyBy source s (u.movePc off) := by
  left
  rcases u.movePc_cases off with ⟨-, h⟩ | ⟨-, h⟩
  · rw [h, State.halt_status]; rfl
  · rw [h, State.setPc_status, hu]; rfl

theorem FaultsOnlyBy.of_raiseFault {c : FaultCause} (hc : source c) : FaultsOnlyBy source s (s.raiseFault c) :=
  .inr ⟨c, s.out, hc, rfl⟩

/-- The unimplemented operation faults under the policy `fault` alone (rule R203). -/
theorem FaultsOnlyBy.of_unimplemented (hr : s.status = .running)
    (hc : s.cfg.unimplPolicy = .fault → source .unimplementedOperation) : FaultsOnlyBy source s s.unimplemented := by
  rcases s.unimplemented_cases with ⟨hp, h⟩ | ⟨-, h⟩ <;> rw [h]
  · exact .inr ⟨_, _, hc hp, rfl⟩
  · exact .of_movePc hr

/-- An event emitted first changes neither the fault nor the state it leaves but for the output. -/
theorem FaultsOnlyBy.of_emit {e : Event} {source' : FaultCause → Prop} (hc : ∀ c, source c → source' c)
    (h : FaultsOnlyBy source (s.emit e) t) : FaultsOnlyBy source' s t := by
  rcases h with h | ⟨c, o, hs, h⟩
  · exact .inl h
  · exact .inr ⟨c, o, hc c hs, by cases c <;> exact h⟩

/-- A FAULTED state records a cause that has a source, the pc and the cause's word, and has only the status and the
output changed. -/
theorem FaultsOnlyBy.of_faulted {c : FaultCause} {a : Word} {w : Option Word} (h : FaultsOnlyBy source s t)
    (ht : t.status = .faulted c a w) :
    source c ∧ a = s.pc ∧ w = faultWord s c ∧ ∃ o, t = (s.raiseFault c).withOut o := by
  rcases h with h | ⟨c', o, hc, rfl⟩
  · rw [ht] at h; cases h
  · cases ht
    exact ⟨hc, rfl, rfl, o, rfl⟩

end

/-! ## The sources of an instruction's fault -/

section
variable {i : Instr} {s t : State} {n : Nat} {rd base : RegIdx} {imm : Word} {put : Memory → Nat → Memory}
  {get : Memory → Nat → Word}

theorem not_eaOk_of_accessAddress (h : accessAddress s base imm n = none) : ¬EaOk s base imm n := fun hok =>
  absurd ((if_pos hok).symm.trans h) (Option.some_ne_none _)

theorem storeOp_faultsOnlyBy (hr : s.status = .running) (hi : memAccess i = some (base, imm, (n : Int)))
    (h : storeOp n put base imm s = .next t) : FaultsOnlyBy (InstrFaultSource i s) s t := by
  rcases storeOp_cases n put base imm s with ⟨a, -, hl⟩ | ⟨ha, hl⟩ <;> rw [hl] at h <;> cases h
  · exact .of_movePc hr
  · exact .of_raiseFault (.access base imm n hi (not_eaOk_of_accessAddress ha))

theorem loadOp_faultsOnlyBy (hr : s.status = .running) (hi : memAccess i = some (base, imm, (n : Int)))
    (h : loadOp n get rd base imm s = .next t) : FaultsOnlyBy (InstrFaultSource i s) s t := by
  rcases loadOp_cases n get rd base imm s with ⟨a, -, hl⟩ | ⟨ha, hl⟩ <;> rw [hl] at h <;> cases h
  · exact .of_movePc hr
  · exact .of_raiseFault (.access base imm n hi (not_eaOk_of_accessAddress ha))

theorem branchIf_faultsOnlyBy {c : Bool} (hr : s.status = .running) (h : branchIf c imm s = .next t) :
    FaultsOnlyBy (InstrFaultSource i s) s t := by
  cases h
  cases c with
  | true => exact .of_movePc hr
  | false => exact .of_movePc hr

/-- ecall faults by service 5 and by a service that does not exist (rules R192, R194). -/
theorem execEcall_faultsOnlyBy {svc : BitVec 10} (hr : s.status = .running) (h : execEcall svc s = .next t) :
    FaultsOnlyBy (InstrFaultSource (.ecall svc) s) s t := by
  rcases execEcall_cases svc s with ⟨-, he⟩ | ⟨-, he⟩ | ⟨hsvc, he⟩ | ⟨hh, h1, h5, he⟩ <;> rw [he] at h <;> cases h
  · exact .inl rfl
  · exact .of_movePc hr
  · rcases printStrService_cases s with ⟨bs, -, hp⟩ | ⟨hs, hp⟩ <;> rw [hp]
    · exact .of_movePc hr
    · exact .of_raiseFault (.string (congrArg _ hsvc) hs)
  · exact .of_unimplemented hr (.service svc rfl h1 h5 hh)

/-- Loads, stores and ecall are the instructions that can fault (rule R202). -/
theorem exec_faultsOnlyBy (hr : s.status = .running) (h : exec i s = .next t) :
    FaultsOnlyBy (InstrFaultSource i s) s t := by
  cases i with
  | sb src base imm => exact storeOp_faultsOnlyBy hr rfl ((exec_sb src base imm s).symm.trans h)
  | sw src base imm => exact storeOp_faultsOnlyBy hr rfl ((exec_sw src base imm s).symm.trans h)
  | lb rd base imm => exact loadOp_faultsOnlyBy hr rfl ((exec_lb rd base imm s).symm.trans h)
  | lw rd base imm => exact loadOp_faultsOnlyBy hr rfl ((exec_lw rd base imm s).symm.trans h)
  | lbu rd base imm => exact loadOp_faultsOnlyBy hr rfl ((exec_lbu rd base imm s).symm.trans h)
  | beq | bne | bz | bnz | blt | bge | bltu | bgeu => exact branchIf_faultsOnlyBy hr h
  | ecall svc => exact execEcall_faultsOnlyBy hr h
  | jr | jalr => cases h; exact .inl (congrArg endedAbnormally hr)
  | _ => cases h; exact .of_movePc hr

end

/-! ## The sources of a step's fault -/

/-- An event emitted before the instruction makes no source of a fault. -/
theorem InstrFaultSource.of_emit {i : Instr} {s : State} {e : Event} {c : FaultCause}
    (h : InstrFaultSource i (s.emit e) c) : InstrFaultSource i s c := by
  cases h with
  | access base imm n hi hea => exact .access base imm n hi hea
  | string hi hs => exact .string hi hs
  | service svc hi h1 h5 hh hp => exact .service svc hi h1 h5 hh hp

theorem step_faultsOnlyBy {s t : State} (h : step s = .next t) : FaultsOnlyBy (StepFaultSource s) s t := by
  have hr := running_of_step s t h
  rcases step_cases s t h with ⟨-, rfl⟩ | ⟨-, ho, hp, rfl⟩ | ⟨-, -, ⟨i, hd, he⟩ | ⟨r, hd, rfl⟩⟩
  · exact .inl rfl
  · exact .of_raiseFault (.misaligned (oddPc_eq_true_iff.1 ho) hp)
  · exact .of_emit (fun c hc => .instr i c hd hc.of_emit) (exec_faultsOnlyBy hr he)
  · exact .of_emit (fun _ => id) (.of_unimplemented hr (.word r hd))

/-- Settles O52: a step that ends FAULTED has raised the fault in the state it began in. -/
theorem faultsCommitNothing : Obligations.FaultsCommitNothing := by
  unfold Obligations.FaultsCommitNothing
  intro s t c a w h ht
  obtain ⟨-, ha, -, o, rfl⟩ := (step_faultsOnlyBy h).of_faulted ht
  exact ⟨ha, rfl, fun _ => rfl, fun _ => rfl, rfl⟩

/-- Settles O53, by the sources of a step's fault. -/
theorem faultCausesHaveSources : Obligations.FaultCausesHaveSources := by
  unfold Obligations.FaultCausesHaveSources
  intro s t c a w h ht
  obtain ⟨hc, -, hw, -⟩ := (step_faultsOnlyBy h).of_faulted ht
  have fetched : FetchedWord s s.instrWord := (fetchedWord_iff s _).2 rfl
  cases hc with
  | misaligned ho hp => exact ⟨hw, ho, hp⟩
  | word r hd hp => exact ⟨_, fetched, hw, hp, .inl ⟨r, hd⟩⟩
  | instr i c hd hi =>
    cases hi with
    | access base imm n hi hea => exact ⟨_, i, base, imm, n, fetched, hw, hd, hi, hea⟩
    | string hi hs => exact ⟨⟨_, fetched, hw, hi ▸ hd⟩, stringAt_eq_none_iff.1 hs⟩
    | service svc hi h1 h5 hh hp => exact ⟨_, fetched, hw, hp, .inr ⟨svc, hi ▸ hd, h1, h5, hh⟩⟩

end Sys2Proof.Machine
end

section
/-! PROOFS. The state a run starts in (rules R36, R220, R222): what a loaded memory reads as, and the registers at
reset. -/

namespace Sys2Proof.Machine

/-- A read after a load: the byte loaded there, or where the bytes do not reach, the old one (rule R222). -/
theorem Memory.read_load (vs : List Byte) (m : Memory) (a b : Nat) (h : m.wf = true) (ha : a + vs.length ≤ 65536) :
    (m.load a vs).read b = if a ≤ b then vs[b - a]?.getD (m.read b) else m.read b := by
  induction vs generalizing m a with
  | nil => simp [Memory.load]
  | cons v vs ih =>
    rw [List.length_cons] at ha
    rw [Memory.load, ih _ _ (Memory.wf_write m a v h (by omega)) (by omega), Memory.read_write m a b v h]
    rcases Nat.lt_trichotomy b a with hlt | rfl | hgt
    · rw [if_neg (by omega), if_neg (by omega), if_neg (by omega)]
    · rw [if_neg (by omega), if_pos rfl, if_pos (Nat.le_refl b), Nat.sub_self]
      rfl
    · have hi : b - a = b - (a + 1) + 1 := by omega
      rw [if_pos (by omega), if_neg (by omega), if_pos (by omega), hi, List.getElem?_cons_succ]

/-- An image that fits the memory, loaded at address 0 of the empty memory, is read back byte by byte (rule R222). -/
theorem Memory.getElem?_eq_read_load_nil {image : List Byte} {k : Nat} (hl : image.length ≤ 65536)
    (hk : k < image.length) : image[k]? = some ((Memory.load [] 0 image).read k) := by
  rw [Memory.read_load image [] 0 k rfl (by omega), if_pos (Nat.zero_le k), Nat.sub_zero,
    List.getElem?_eq_getElem hk, Option.getD_some]

theorem launch_of_fits (c : Config) {image : List Byte} (hl : image.length ≤ 65536) :
    launch c image = some { State.reset with mem := Memory.load [] 0 image, cfg := c } :=
  if_pos hl

theorem State.reset_reg (r : RegIdx) : State.reset.reg r = 0 :=
  Vector.getElem_replicate r.isLt

/-- Settles O49: the launch state is the reset state but for the parameters and the memory, and its memory is the empty
one with the image loaded. -/
theorem launchState : Obligations.LaunchState := by
  unfold Obligations.LaunchState
  refine ⟨fun c image hl => ⟨_, launch_of_fits c hl, ?_⟩, State.reset_reg, rfl, rfl, rfl⟩
  exact ⟨State.reset_reg, rfl, rfl, rfl, rfl, fun k hk => Memory.getElem?_eq_read_load_nil hl hk⟩

end Sys2Proof.Machine
end

section
/-! PROOFS. Words written out from the spec's encodings (rules R63 to R78). -/

namespace Sys2Proof

/-- Settles O1: each word is the encoding of its instruction, which is well formed, so it decodes to it. -/
theorem sampleWordsDecode : Obligations.SampleWordsDecode := by
  unfold Obligations.SampleWordsDecode
  have decodes (i : Instr) {w : Word} (hw : encode defaultTables i = w) (hi : i.wf = true) :
      decodeWord defaultTables w = .ok i :=
    hw ▸ decodeEncodeRoundTrip defaultTables defaultTables_ok i hi
  exact ⟨decodes (.sub 6 7) rfl rfl, decodes (.jalr 1 7) rfl rfl, decodes (.addi 6 0xFFFF) rfl rfl,
    decodes (.srai 6 4) rfl rfl, decodes (.beq 6 7 0xFFFC) rfl rfl, decodes (.sb 6 2 0xFFFF) rfl rfl,
    decodes (.lw 6 2 0xFFF8) rfl rfl, decodes (.jal 1 0xFE00) rfl rfl, decodes (.lui 6 0xFF80) rfl rfl,
    decodes (.ecall 5) rfl rfl⟩

end Sys2Proof
end
